-- ==== Sys2Proof/Word.lean ====
section
/-! DEFINITION. The machine's plain value types: register words, bytes, key classes and 16-byte blocks
(00_scope.md R7, R9, R10). -/

namespace Sys2Proof

/-- A register value: 32 bits, bit 0 the least significant (R7 `REG_WIDTH`, R9). -/
abbrev Word := BitVec 32

/-- A byte of caller memory. -/
abbrev Byte := BitVec 8

/-- `KEY_CLASSES` of R7: 128, 192 and 256 bits. -/
inductive KeyClass where
  | k128
  | k192
  | k256
deriving DecidableEq, Repr, Inhabited

/-- A block: a string of 16 bytes, byte 0 first (R10). It is a byte string and not a number (R53). -/
structure Block where
  bytes : List Byte
  size_eq : bytes.length = 16
deriving DecidableEq, Repr

end Sys2Proof
end

