-- ==== Sys2Proof/Syntax.lean ====
section
/-! DEFINITION. The syntax of commands: one constructor per row of spec/opcode_table.json (30_encoding.md R76). -/

namespace Sys2Proof

/-- A command. `tok` is the `TOKEN` field, a number compared with `OWNER` (R74); `ACQUIRE` carries it and ignores it.
`init` and `seed` are the `FLAG` bit where the row allows it (R73). Every other operand comes from the descriptor
registers (R82). -/
inductive Instr where
  | acquire (tok : Nat)
  | release (tok : Nat)
  | keyInit (tok : Nat)
  | ecbEnc (tok : Nat)
  | ecbDec (tok : Nat)
  | cbcEnc (tok : Nat)
  | cbcDec (tok : Nat)
  | ctrEnc (init : Bool) (tok : Nat)
  | ctrDec (init : Bool) (tok : Nat)
  | macTag (seed : Bool) (tok : Nat)
  | macLoadKey (tok : Nat)
deriving DecidableEq, Repr

/-- The `TOKEN` operand of a command (R74). -/
def Instr.token : Instr → Nat
  | .acquire t | .release t | .keyInit t | .ecbEnc t | .ecbDec t | .cbcEnc t | .cbcDec t
  | .ctrEnc _ t | .ctrDec _ t | .macTag _ t | .macLoadKey t => t

end Sys2Proof
end

