-- ==== Sys2Proof/WellFormed.lean ====
section
/-! DEFINITION. Well-formed commands: the terms that have an encoding (30_encoding.md R70, R74). -/

namespace Sys2Proof

/-- R74: `TOKEN` is an 8-bit unsigned immediate. It is the only operand a term can get wrong: `FLAG` stands only in
the constructors whose row allows it (R73). -/
def Instr.wellFormed (i : Instr) : Bool :=
  decide (i.token < 256)

end Sys2Proof
end

