-- ==== Sys2Proof/Decode.lean ====
section
/-! DEFINITION. The command word (30_encoding.md R70 to R77): its fields, the decoder, the encoder, and the opcode
table as mask and match. Any 32-bit word is decoded exactly once (R75). -/

namespace Sys2Proof

/-- Why a word is no command (R77). Each of them makes the write of `CMD` raise `InvalidCommand`. -/
inductive Reject where
  /-- `w & 0xFF00FEC8 != 0`. -/
  | reservedBitSet
  /-- MODE is 6 or 7. -/
  | unassignedMode
  /-- The (MODE, OP) pair is no row of R76. -/
  | unassignedPair
  /-- FLAG = 1 in a row whose FLAG column is 0. -/
  | misplacedFlag
deriving DecidableEq, Repr

/-- R70: the reserved bits 3, 7:6, 15:9 and 31:24. -/
def reservedMask : Word := 0xFF00FEC8#32

/-- `MODE`, bits 2:0 (R70, R71). -/
def fieldMode (w : Word) : Nat := (w.extractLsb' 0 3).toNat

/-- `OP`, bits 5:4 (R70, R72). -/
def fieldOp (w : Word) : Nat := (w.extractLsb' 4 2).toNat

/-- `FLAG`, bit 8 (R70, R73). -/
def fieldFlag (w : Word) : Bool := w.getLsbD 8

/-- `TOKEN`, bits 23:16 (R70, R74). -/
def fieldToken (w : Word) : Nat := (w.extractLsb' 16 8).toNat

/-- A row whose FLAG column is 0 (R76, R77). -/
def rowWithoutFlag (flag : Bool) (i : Instr) : Except Reject Instr :=
  if flag then .error .misplacedFlag else .ok i

/-- The row of R76 that MODE, OP, FLAG and TOKEN select, or the reason there is none (R77). -/
def decodeFields (mode op : Nat) (flag : Bool) (tok : Nat) : Except Reject Instr :=
  match mode, op with
  | 0, 0 => rowWithoutFlag flag (.acquire tok)
  | 0, 1 => rowWithoutFlag flag (.release tok)
  | 1, 0 => rowWithoutFlag flag (.keyInit tok)
  | 2, 0 => rowWithoutFlag flag (.ecbEnc tok)
  | 2, 1 => rowWithoutFlag flag (.ecbDec tok)
  | 3, 0 => rowWithoutFlag flag (.cbcEnc tok)
  | 3, 1 => rowWithoutFlag flag (.cbcDec tok)
  | 4, 0 => .ok (.ctrEnc flag tok)
  | 4, 1 => .ok (.ctrDec flag tok)
  | 5, 0 => .ok (.macTag flag tok)
  | 5, 2 => rowWithoutFlag flag (.macLoadKey tok)
  | m, _ => if m < 6 then .error .unassignedPair else .error .unassignedMode

/-- The decoder: reserved bits first, then the fields (R75 to R77). -/
def decode (w : Word) : Except Reject Instr :=
  if w &&& reservedMask = 0#32 then
    decodeFields (fieldMode w) (fieldOp w) (fieldFlag w) (fieldToken w)
  else .error .reservedBitSet

/-- `MODE`, `OP` and `FLAG` of a command (R71 to R73, R76). -/
def Instr.modeOpFlag : Instr → Nat × Nat × Bool
  | .acquire _ => (0, 0, false)
  | .release _ => (0, 1, false)
  | .keyInit _ => (1, 0, false)
  | .ecbEnc _ => (2, 0, false)
  | .ecbDec _ => (2, 1, false)
  | .cbcEnc _ => (3, 0, false)
  | .cbcDec _ => (3, 1, false)
  | .ctrEnc f _ => (4, 0, f)
  | .ctrDec f _ => (4, 1, f)
  | .macTag f _ => (5, 0, f)
  | .macLoadKey _ => (5, 2, false)

/-- `TOKEN << 16 | FLAG << 8 | OP << 4 | MODE` (R70). -/
def assemble (mode op : Nat) (flag : Bool) (tok : Nat) : Word :=
  BitVec.ofNat 32 (tok * 2 ^ 16 + flag.toNat * 2 ^ 8 + op * 2 ^ 4 + mode)

/-- The word of a well-formed command. -/
def encode (i : Instr) : Word :=
  assemble i.modeOpFlag.1 i.modeOpFlag.2.1 i.modeOpFlag.2.2 i.token

/-- A row of the opcode table (R76): a word `w` selects it when `w & mask == pattern`. -/
structure OpcodeRow where
  mnemonic : String
  pattern : Word
  mask : Word
deriving DecidableEq, Repr

/-- `w & mask == match` (R76). -/
def OpcodeRow.selectedBy (r : OpcodeRow) (w : Word) : Bool :=
  decide (w &&& r.mask = r.pattern)

/-- R76's table, row by row. The decoder does not use it: that the two agree is a claim. -/
def opcodeTable : List OpcodeRow :=
  [ ⟨"ACQUIRE", 0x00000000#32, 0xFF00FFFF#32⟩,
    ⟨"RELEASE", 0x00000010#32, 0xFF00FFFF#32⟩,
    ⟨"KEY_INIT", 0x00000001#32, 0xFF00FFFF#32⟩,
    ⟨"ECB_ENC", 0x00000002#32, 0xFF00FFFF#32⟩,
    ⟨"ECB_DEC", 0x00000012#32, 0xFF00FFFF#32⟩,
    ⟨"CBC_ENC", 0x00000003#32, 0xFF00FFFF#32⟩,
    ⟨"CBC_DEC", 0x00000013#32, 0xFF00FFFF#32⟩,
    ⟨"CTR_ENC", 0x00000004#32, 0xFF00FEFF#32⟩,
    ⟨"CTR_DEC", 0x00000014#32, 0xFF00FEFF#32⟩,
    ⟨"MAC_TAG", 0x00000005#32, 0xFF00FEFF#32⟩,
    ⟨"MAC_LOAD_KEY", 0x00000025#32, 0xFF00FFFF#32⟩ ]

/-- The mnemonic of a command, as R76 spells it. -/
def Instr.mnemonic : Instr → String
  | .acquire _ => "ACQUIRE"
  | .release _ => "RELEASE"
  | .keyInit _ => "KEY_INIT"
  | .ecbEnc _ => "ECB_ENC"
  | .ecbDec _ => "ECB_DEC"
  | .cbcEnc _ => "CBC_ENC"
  | .cbcDec _ => "CBC_DEC"
  | .ctrEnc _ _ => "CTR_ENC"
  | .ctrDec _ _ => "CTR_DEC"
  | .macTag _ _ => "MAC_TAG"
  | .macLoadKey _ => "MAC_LOAD_KEY"

/-- The command a table row's bits decode to: a command is one 32-bit word, its bit 0 the table's bit 0. -/
def decodeTableWord (nbits w : Nat) : Option Instr :=
  if nbits ≤ 32 ∧ w < 2 ^ nbits then
    match decode (BitVec.ofNat 32 w) with
    | .ok i => some i
    | .error _ => none
  else none

end Sys2Proof
end

