-- ==== Sys2Proof/Machine/State.lean ====
section
/-! DEFINITION. The state of the machine (10_state.md): the block's own state of R37, caller memory, and the model's
own fields (the platform's parameters, the host accesses to come, the value the bus returned, the free-value counter). -/

namespace Sys2Proof.Machine

/-- The errors a command reports (60_exceptions.md R180). -/
inductive Err where
  | invalidKeyLength
  | invalidLength
  | engineBusy
  | bufferAliasing
  | invalidCommand
  | notOwner
  | keyNotLoaded
  | macKeyNotLoaded
  | accessFault
  | invalidStreamState
deriving DecidableEq, Repr

/-- The descriptor registers (R25), one set shared by all host agents (R26). -/
structure Descriptor where
  keyBits : Word
  keyLen : Word
  keyAddr : Word
  inAddr : Word
  outAddr : Word
  len : Word
  ivAddr : Word
  streamAddr : Word
deriving DecidableEq, Repr, Inhabited

/-- `CTX`, the AesContext (R30). `key` holds `cls/8` bytes: an invariant, see `Safety.lean`. -/
structure AesContext where
  valid : Bool
  cls : KeyClass
  key : List Byte
deriving DecidableEq, Repr, Inhabited

/-- The block's state: R37's table. -/
structure Orch where
  desc : Descriptor
  /-- `LOCKED` (R27). -/
  locked : Bool
  /-- `OWNER` (R27). -/
  owner : BitVec 8
  /-- `GEN`, the last token granted (R28). -/
  gen : BitVec 8
  ctx : AesContext
  /-- `MAC_READY`: false is AwaitingKey, true is Ready (R31). -/
  macReady : Bool
  /-- `FAIL` of the last command (R32). -/
  fail : Bool
  /-- `ERR` of the last command (R32). -/
  err : BitVec 4
deriving DecidableEq, Repr, Inhabited

/-- `CTX` at reset and after `RELEASE`: invalid, class 128, 16 zero bytes (R30, R102). -/
def AesContext.none : AesContext :=
  ⟨false, .k128, List.replicate 16 0#8⟩

/-- The block's state after reset (R37, R210). -/
def Orch.reset : Orch where
  desc := ⟨0#32, 0#32, 0#32, 0#32, 0#32, 0#32, 0#32, 0#32⟩
  locked := false
  owner := 0#8
  gen := 0#8
  ctx := AesContext.none
  macReady := false
  fail := false
  err := 0#4

/-- A range of the platform's memory map: `size` bytes from `base`, readable or writable by the block. -/
structure MemRange where
  base : Nat
  size : Nat
  readable : Bool
  writable : Bool
deriving DecidableEq, Repr

/-- The OPEN parameters `AES_BASE` and `MemAdmit` of R7, as plain data that no step changes.
DESIGN CHOICE (log 1; the spec calls them arguments of the model): carried in the state, arbitrary in every claim. A
base above 2^32-64: log 17. -/
structure Platform where
  aesBase : Word
  memMap : List MemRange
deriving DecidableEq, Repr

/-- The width of a host bus access (R22, 93_implementation_defined.md U3). -/
inductive AccessSize where
  | byte
  | half
  | word
deriving DecidableEq, Repr

/-- What the outside world does to the machine, one entry a step. An access carries no agent name, because the block
cannot see which agent issues it (R188, R189). DESIGN CHOICE (log 2). -/
inductive HostAccess where
  /-- A host agent's bus write. Into the window it is a register write (R22); a byte elsewhere is a write of caller
  memory (R20). A byte write stores the low byte of `value`. -/
  | write (addr : Word) (size : AccessSize) (value : Word)
  /-- A host agent's bus read, answered in `readData`. -/
  | read (addr : Word) (size : AccessSize)
  /-- The platform's reset event (R210). -/
  | reset
  /-- The chip leaves a low-power mode (R193). -/
  | lowPowerExit
deriving DecidableEq, Repr

/-- Caller memory (R50): the listed bytes, addresses rising, no entry equal to what an unlisted address reads as
(`Memory.wf` in Ops.lean). -/
abbrev Memory := List Host.Cell

/-- The whole state. -/
structure State where
  /-- The block (R37). -/
  orch : Orch
  /-- Caller memory (R50). -/
  mem : Memory
  /-- `AES_BASE` and `MemAdmit` (R7, R38). The model's own field, log 1. -/
  platform : Platform
  /-- Host accesses and platform events still to come, the next first (R22). The model's own field, log 2. -/
  pending : List HostAccess
  /-- What the bus returned to the latest host read. The model's own field, log 5. -/
  readData : Word
  /-- Index of the next free value for the state after a low-power mode (R193). The model's own field, log 6. -/
  wakeCount : Nat
deriving DecidableEq, Repr

/-- Right after reset: the block as R37 says, memory with nothing listed. The platform's parameters are OPEN in the
spec; here they are the choice 95_test_vectors.md makes for its vectors, with the window just above the admitted
memory. The block is enabled: R213 leaves any clock or power gate to the platform (log 18). DESIGN CHOICE (log 1, log 2,
log 4, log 5, log 6, log 18). -/
def State.reset : State where
  orch := Orch.reset
  mem := []
  platform := ⟨0x00010000#32, [⟨0, 0x10000, true, true⟩]⟩
  pending := []
  readData := 0#32
  wakeCount := 0

/-- A CtrStreamState while a command works on it (R33, R140). Between commands it is 33 bytes of caller memory. -/
structure CtrStream where
  counter : Block
  cache : Block
  offset : Nat
deriving DecidableEq, Repr

/-- How a region is used (R13). -/
inductive Access where
  | r
  | w
  | rw
deriving DecidableEq, Repr

/-- Which access `MemAdmit` is asked about (R7). -/
inductive AccessKind where
  | read
  | write
deriving DecidableEq, Repr

/-- The names of R58's regions. -/
inductive RegionName where
  | key
  | input
  | output
  | iv
  | stream
  | data
  | tag
  | seed
deriving DecidableEq, Repr

/-- `region(name, base, size, access)` (R13), in unbounded integers. -/
structure Region where
  name : RegionName
  base : Nat
  size : Nat
  access : Access
deriving DecidableEq, Repr

/-- The slots of the register window (R21). -/
inductive DescReg where
  | keyBits
  | keyLen
  | keyAddr
  | inAddr
  | outAddr
  | len
  | ivAddr
  | streamAddr
deriving DecidableEq, Repr

/-- What stands at an offset of the window (R21). -/
inductive WindowSlot where
  | cmd
  | status
  | reserved
  | desc (r : DescReg)
deriving DecidableEq, Repr

/-- Reasons the machine stops with a fault. There are none: every error of the block is a value in `STATUS`
(R180, R185), so no constructor stands here and no step can fault. Safe (log 12). -/
inductive Fault where
deriving DecidableEq, Repr

/-- Reasons a step has no meaning in the model. -/
inductive Refusal where
  /-- An instruction that has no meaning yet; raised by a refused arm of `exec` only. Safe. -/
  | notModelled (mnemonic : String)
  /-- A byte, halfword or misaligned access that touches the register window: R22 leaves it unspecified and says a
  model refuses it. Raised by `hostWrite` and `hostRead`. Safe (log 8). -/
  | windowAccessNotAlignedWord
  /-- A halfword or word access of a host outside the window: R22 says it is no access to this block, and R54 leaves
  the host's byte lanes open. Raised by `hostWrite` and `hostRead`. Safe (log 7). -/
  | wideHostAccessOutsideWindow
deriving DecidableEq, Repr

/-- The three outcomes of a step of this machine. -/
abbrev Result := Host.Outcome State Fault Refusal

end Sys2Proof.Machine
end

