-- ==== Sys2Proof/Config.lean ====
section
/-! DEFINITION. What an implementation fixes (00_scope.md R7, R8) and the free values. A constant without a body is
open: nothing in Lean can evaluate it, so a claim holds whatever it is. -/

namespace Sys2Proof

/-- BlockCipherCore (R8): for a key class and a key, a permutation of the blocks. `E_c` is the permutation and `D_c` its
inverse, so exactly R8's two laws hold of them: each inverts the other, and they depend on class, key and block alone.
The AES of FIPS-197 is one instance; nothing here says it is the instance (log 9). -/
opaque Config.blockCipher : KeyClass → List Byte → Equiv.Perm Block

/-- The block's state after the chip leaves a low-power mode for the `n`-th time: unknown (R193, U11, log 6). -/
opaque Config.orchAfterLowPower : Nat → Machine.Orch

/-- `2^ADDR_WIDTH`: addresses are 0 .. 2^32-1 (R7). -/
abbrev Config.addressSpace : Nat := 2 ^ 32

/-- The register window is 64 bytes (R21). -/
abbrev Config.windowBytes : Nat := 64

/-- `BLOCK_BYTES` (R7). -/
abbrev Config.blockBytes : Nat := 16

/-- `STREAM_BYTES`: the size of a CtrStreamState record (R7, R33). -/
abbrev Config.streamBytes : Nat := 33

end Sys2Proof
end

