-- ==== Sys2Proof/Machine/Bytes.lean ====
section
/-! DEFINITION. Byte strings and blocks (00_scope.md R10, 20_memory.md R53): exclusive or, concatenation, and the
big-endian number of a block, which the counter increment alone uses. -/

namespace Sys2Proof

/-- `A xor B` on strings of equal length (R10). -/
def xorBytes (a b : List Byte) : List Byte :=
  List.zipWith (fun x y => x ^^^ y) a b

/-- `A xor B` on blocks (R10). -/
def Block.xor (a b : Block) : Block :=
  ⟨xorBytes a.bytes b.bytes, by simp [xorBytes, a.size_eq, b.size_eq]⟩

/-- `0^16` (R10). -/
def Block.zero : Block :=
  ⟨List.replicate 16 0#8, by simp⟩

/-- `be(B)`: byte 0 is the most significant (R10). -/
def Block.be (b : Block) : Nat :=
  b.bytes.foldl (fun acc x => acc * 256 + x.toNat) 0

/-- `unbe(v)`, the inverse of `be` on 0 .. 2^128-1 (R10). -/
def Block.unbe (v : Nat) : Block :=
  ⟨(List.range 16).map fun i => BitVec.ofNat 8 (v / 256 ^ (15 - i)), by simp⟩

/-- The counter increment over all 16 bytes, modulo 2^128 (42_ctr_stream.md R142, R146). -/
def Block.increment (b : Block) : Block :=
  Block.unbe ((b.be + 1) % 2 ^ 128)

/-- `B_0 ++ B_1 ++ ...` (R10). -/
def concatBlocks (bs : List Block) : List Byte :=
  bs.flatMap Block.bytes

end Sys2Proof
end

