-- ==== Sys2Proof/Machine/Ops.lean ====
section
/-! DEFINITION. The named operations over memory and the block's state: bytes of caller memory (20_memory.md), the
platform's `MemAdmit`, the way a command fails or completes (30_encoding.md R80, R81), and the descriptor registers. -/

namespace Sys2Proof.Machine

/-! ### The cipher -/

/-- `E_c(k, b)` (00_scope.md R8). -/
def encryptBlock (c : AesContext) (b : Block) : Block :=
  Config.blockCipher c.cls c.key b

/-- `D_c(k, b)` (00_scope.md R8). -/
def decryptBlock (c : AesContext) (b : Block) : Block :=
  (Config.blockCipher c.cls c.key).symm b

/-- The length of a key of a class, in bytes (R7). -/
def keyBytes : KeyClass → Nat
  | .k128 => 16
  | .k192 => 24
  | .k256 => 32

/-! ### Caller memory -/

/-- What an unlisted address reads as. DESIGN CHOICE (log 4): the spec gives memory no value at power-on. -/
def Memory.unlisted : Byte := 0#8

/-- The canonical form: addresses strictly rising, no entry equal to what an unlisted address reads as. -/
abbrev Memory.wf (m : Memory) : Prop :=
  m.Pairwise (fun x y => x.1 < y.1) ∧ ∀ c ∈ m, c.2 ≠ Memory.unlisted

/-- The byte at an address (R50, R56: plain memory). -/
def Memory.byteAt : Memory → Nat → Byte
  | [], _ => Memory.unlisted
  | (b, v) :: rest, a => if a = b then v else Memory.byteAt rest a

/-- Store one byte, keeping the canonical form. -/
def Memory.setByte : Memory → Nat → Byte → Memory
  | [], a, v => if v = Memory.unlisted then [] else [(a, v)]
  | (b, w) :: rest, a, v =>
    if a < b then
      if v = Memory.unlisted then (b, w) :: rest else (a, v) :: (b, w) :: rest
    else if a = b then
      if v = Memory.unlisted then rest else (a, v) :: rest
    else (b, w) :: Memory.setByte rest a v

/-- `MemRead(a, n)`: the bytes at a .. a+n-1, in address order (R11). -/
def Memory.readBytes (m : Memory) (a n : Nat) : List Byte :=
  (List.range n).map fun i => m.byteAt (a + i)

/-- `MemWrite(a, n, v)`: `v[0]` at address a (R11). -/
def Memory.writeBytes : Memory → Nat → List Byte → Memory
  | m, _, [] => m
  | m, a, b :: bs => Memory.writeBytes (m.setByte a b) (a + 1) bs

/-- `MemRead(a, 16)` as a block: the byte at a is byte 0 (R53). -/
def Memory.readBlock (m : Memory) (a : Nat) : Block :=
  ⟨m.readBytes a 16, by simp [Memory.readBytes]⟩

/-- Blocks 0 .. n-1 of a buffer: block i is `MemRead(A + 16*i, 16)` (R82). -/
def Memory.readBlocks (m : Memory) (a n : Nat) : List Block :=
  (List.range n).map fun i => m.readBlock (a + 16 * i)

/-! ### The platform -/

/-- The byte address lies in the register window (R21). The window does not wrap: DESIGN CHOICE (log 17). -/
def Platform.inWindow (p : Platform) (a : Nat) : Bool :=
  decide (p.aesBase.toNat ≤ a ∧ a < p.aesBase.toNat + Config.windowBytes)

/-- A range of the memory map allows the access. -/
def MemRange.allows (r : MemRange) (a : Nat) (k : AccessKind) : Bool :=
  decide (r.base ≤ a ∧ a < r.base + r.size) &&
    match k with
    | .read => r.readable
    | .write => r.writable

/-- `MemAdmit(a, k)` (R7, R50): some range of the memory map allows it, and the byte is none of the window's, which
R51 says the predicate should deny (log 13). -/
def Platform.admits (p : Platform) (a : Nat) (k : AccessKind) : Bool :=
  !p.inWindow a && p.memMap.any fun r => r.allows a k

/-! ### Failing and completing -/

/-- The codes of R180. -/
def Err.code : Err → BitVec 4
  | .invalidKeyLength => 1#4
  | .invalidLength => 2#4
  | .engineBusy => 3#4
  | .bufferAliasing => 4#4
  | .invalidCommand => 5#4
  | .notOwner => 6#4
  | .keyNotLoaded => 7#4
  | .macKeyNotLoaded => 8#4
  | .accessFault => 9#4
  | .invalidStreamState => 10#4

/-- `raise X` (R12, R81): `FAIL <- 1`, `ERR <- code(X)`, and nothing else. The block takes no trap and saves nothing
(R181, R185), so this is all an error does and there is no return from it. -/
def State.raise (e : Err) (s : State) : State :=
  { s with orch := { s.orch with fail := true, err := e.code } }

/-- The memory writes of a command, in the order its rule lists them (R80.1). -/
def Memory.commit (m : Memory) (writes : List (Nat × List Byte)) : Memory :=
  writes.foldl (fun m w => m.writeBytes w.1 w.2) m

/-- Completion (R80): the memory writes, the new state of the block, then `FAIL <- 0` and `ERR <- 0`. -/
def State.complete (writes : List (Nat × List Byte)) (o : Orch) (s : State) : State :=
  { s with mem := s.mem.commit writes, orch := { o with fail := false, err := 0#4 } }

/-- The first error that applies (R79). -/
def firstError : List (Option Err) → Option Err
  | [] => none
  | some e :: _ => some e
  | none :: rest => firstError rest

/-- A command (R78): its checks in order, then failure or completion. What it writes is computed from the state
before the command (R59, R80). -/
def command (s : State) (checks : List (Option Err)) (writes : List (Nat × List Byte)) (o : Orch) : Result :=
  match firstError checks with
  | some e => .next (s.raise e)
  | none => .next (s.complete writes o)

/-! ### Descriptor registers -/

/-- `reg[NAME]` (R11, R25). -/
def Descriptor.get (d : Descriptor) : DescReg → Word
  | .keyBits => d.keyBits
  | .keyLen => d.keyLen
  | .keyAddr => d.keyAddr
  | .inAddr => d.inAddr
  | .outAddr => d.outAddr
  | .len => d.len
  | .ivAddr => d.ivAddr
  | .streamAddr => d.streamAddr

/-- `reg[NAME] <- v`: all 32 bits are stored (R11, R25). -/
def Descriptor.set (d : Descriptor) (r : DescReg) (v : Word) : Descriptor :=
  match r with
  | .keyBits => { d with keyBits := v }
  | .keyLen => { d with keyLen := v }
  | .keyAddr => { d with keyAddr := v }
  | .inAddr => { d with inAddr := v }
  | .outAddr => { d with outAddr := v }
  | .len => { d with len := v }
  | .ivAddr => { d with ivAddr := v }
  | .streamAddr => { d with streamAddr := v }

/-- A host's write of a descriptor register (R25, R26): stored whatever the lock says. -/
def State.setDesc (r : DescReg) (v : Word) (s : State) : State :=
  { s with orch := { s.orch with desc := s.orch.desc.set r v } }

/-- The bus answers a host read. -/
def State.answer (v : Word) (s : State) : State :=
  { s with readData := v }

end Sys2Proof.Machine
end

