-- ==== Sys2Proof/Machine/Operands.lean ====
section
/-! DEFINITION. Operands and checks: the descriptor operands (30_encoding.md R82), the regions of every command
(20_memory.md R58) and the checks of 30_encoding.md R79, each with the error it raises. -/

namespace Sys2Proof.Machine

/-! ### Operands (R82): unsigned numbers, no scaling and no sign -/

/-- `reg[LEN]`. -/
def Descriptor.length (d : Descriptor) : Nat := d.len.toNat

/-- `reg[IN_ADDR]`. -/
def Descriptor.inBase (d : Descriptor) : Nat := d.inAddr.toNat

/-- `reg[OUT_ADDR]`. -/
def Descriptor.outBase (d : Descriptor) : Nat := d.outAddr.toNat

/-- `reg[IV_ADDR]`. -/
def Descriptor.ivBase (d : Descriptor) : Nat := d.ivAddr.toNat

/-- `reg[STREAM_ADDR]`. -/
def Descriptor.streamBase (d : Descriptor) : Nat := d.streamAddr.toNat

/-- `reg[KEY_ADDR]`. -/
def Descriptor.keyBase (d : Descriptor) : Nat := d.keyAddr.toNat

/-- `n = L / 16` (R58, R125). -/
def Descriptor.blockCount (d : Descriptor) : Nat := d.length / Config.blockBytes

/-- The class `KEY_BITS` names, compared as a whole 32-bit number (R82, R103). -/
def keyClassOfBits (bits : Nat) : Option KeyClass :=
  if bits = 128 then some .k128
  else if bits = 192 then some .k192
  else if bits = 256 then some .k256
  else none

/-! ### Regions (R58) -/

/-- `KEY_INIT`. -/
def keyInitRegions (d : Descriptor) : List Region :=
  [⟨.key, d.keyBase, d.keyLen.toNat, .r⟩]

/-- `ECB_ENC`, `ECB_DEC`. -/
def ecbRegions (d : Descriptor) : List Region :=
  [⟨.input, d.inBase, d.length, .r⟩, ⟨.output, d.outBase, d.length, .w⟩]

/-- `CBC_ENC`, `CBC_DEC`: those of ECB and the IV. -/
def cbcRegions (d : Descriptor) : List Region :=
  ecbRegions d ++ [⟨.iv, d.ivBase, Config.blockBytes, .r⟩]

/-- `CTR_ENC`, `CTR_DEC`: those of ECB, the stream record, and the IV only when FLAG = 1. -/
def ctrRegions (init : Bool) (d : Descriptor) : List Region :=
  ecbRegions d ++ [⟨.stream, d.streamBase, Config.streamBytes, .rw⟩]
    ++ if init then [⟨.iv, d.ivBase, Config.blockBytes, .r⟩] else []

/-- `MAC_LOAD_KEY`. -/
def macLoadKeyRegions (d : Descriptor) : List Region :=
  [⟨.input, d.inBase, Config.blockBytes, .r⟩, ⟨.output, d.outBase, Config.blockBytes, .w⟩]

/-- `MAC_TAG`: the data is written only when n > 1, and the seed is a region only when FLAG = 1. -/
def macTagRegions (seed : Bool) (d : Descriptor) : List Region :=
  [⟨.data, d.inBase, d.length, if 1 < d.blockCount then .rw else .r⟩, ⟨.tag, d.outBase, Config.blockBytes, .w⟩]
    ++ if seed then [⟨.seed, d.ivBase, Config.blockBytes, .r⟩] else []

/-! ### Access and aliasing (R55, R57) -/

/-- The region is read. -/
def Access.reads : Access → Bool
  | .r | .rw => true
  | .w => false

/-- The region is written. -/
def Access.writes : Access → Bool
  | .w | .rw => true
  | .r => false

/-- A region passes the access check (R55): it does not wrap, and every byte is admitted for its access. A region of
size 0 is not checked. -/
def Region.passes (p : Platform) (r : Region) : Bool :=
  r.size == 0 ||
    (decide (r.base + r.size ≤ Config.addressSpace) &&
      (List.range r.size).all fun i =>
        (!r.access.reads || p.admits (r.base + i) .read) && (!r.access.writes || p.admits (r.base + i) .write))

/-- Two regions overlap (R13): both sizes non-zero and `b1 < b2 + s2` and `b2 < b1 + s1`. -/
def Region.overlaps (r q : Region) : Bool :=
  decide (r.size ≠ 0 ∧ q.size ≠ 0 ∧ r.base < q.base + q.size ∧ q.base < r.base + r.size)

/-- The pair is the exempt one (R57), in either order. -/
def exempted (exempt : Option (RegionName × RegionName)) (a b : RegionName) : Bool :=
  match exempt with
  | none => false
  | some (x, y) => (a == x && b == y) || (a == y && b == x)

/-- A pair the aliasing check refuses (R57): one of the two is written, they overlap, and they are not exempt. -/
def Region.conflicts (exempt : Option (RegionName × RegionName)) (r q : Region) : Bool :=
  (r.access.writes || q.access.writes) && r.overlaps q && !exempted exempt r.name q.name

/-- Some pair of distinct regions conflicts (R57). -/
def anyConflict (exempt : Option (RegionName × RegionName)) : List Region → Bool
  | [] => false
  | r :: rest => rest.any (r.conflicts exempt) || anyConflict exempt rest

/-! ### The checks of R79 -/

/-- `if c: raise e`. -/
def failIf (c : Bool) (e : Err) : Option Err :=
  if c then some e else none

/-- Step 2a: `ACQUIRE` while a token is outstanding. -/
def checkFree (o : Orch) : Option Err :=
  failIf o.locked .engineBusy

/-- Step 2b: no token is outstanding (R104). -/
def checkLocked (o : Orch) : Option Err :=
  failIf (!o.locked) .notOwner

/-- Step 2c: the token, zero-extended, is not `OWNER` (R74, R104). -/
def checkToken (tok : Nat) (o : Orch) : Option Err :=
  failIf (tok != o.owner.toNat) .engineBusy

/-- Step 3: no AesContext (R120). -/
def checkKeyLoaded (o : Orch) : Option Err :=
  failIf (!o.ctx.valid) .keyNotLoaded

/-- Step 4: the MacEngine is in AwaitingKey (R162). -/
def checkMacReady (o : Orch) : Option Err :=
  failIf (!o.macReady) .macKeyNotLoaded

/-- Step 5 (R103): `kb not in {128, 192, 256} or kl * 8 != kb`, in unbounded integers. -/
def checkKeyLength (d : Descriptor) : Option Err :=
  failIf ((keyClassOfBits d.keyBits.toNat).isNone || d.keyLen.toNat * 8 != d.keyBits.toNat) .invalidKeyLength

/-- Step 6 for ECB and CBC (R120). -/
def checkBlockLength (d : Descriptor) : Option Err :=
  failIf (d.length % Config.blockBytes != 0) .invalidLength

/-- Step 6 for `MAC_LOAD_KEY` (R161). -/
def checkOneBlock (d : Descriptor) : Option Err :=
  failIf (d.length != Config.blockBytes) .invalidLength

/-- Step 6 for `MAC_TAG` (R162). -/
def checkMacLength (d : Descriptor) : Option Err :=
  failIf (d.length == 0 || d.length % Config.blockBytes != 0) .invalidLength

/-- Step 7 (R55). -/
def checkAccess (p : Platform) (rs : List Region) : Option Err :=
  failIf (!rs.all (Region.passes p)) .accessFault

/-- Step 8 (R57). -/
def checkAlias (exempt : Option (RegionName × RegionName)) (rs : List Region) : Option Err :=
  failIf (anyConflict exempt rs) .bufferAliasing

/-- The stored `offset` byte of the stream record (R33). -/
def storedOffset (m : Memory) (d : Descriptor) : Nat :=
  (m.byteAt (d.streamBase + 32)).toNat

/-- Step 9 (R147): a stored offset above 15, only when FLAG = 0. -/
def checkStream (init : Bool) (m : Memory) (d : Descriptor) : Option Err :=
  failIf (!init && decide (15 < storedOffset m d)) .invalidStreamState

/-- Steps 2b and 2c: `check_owner` (R104). -/
def ownerChecks (tok : Nat) (o : Orch) : List (Option Err) :=
  [checkLocked o, checkToken tok o]

/-- Steps 7 and 8 over a command's regions. -/
def regionChecks (p : Platform) (exempt : Option (RegionName × RegionName)) (rs : List Region) : List (Option Err) :=
  [checkAccess p rs, checkAlias exempt rs]

end Sys2Proof.Machine
end

