-- ==== Sys2Proof/Machine/BlockModes.lean ====
section
/-! DEFINITION. ModeDriver block modes: `ECB_ENC`, `ECB_DEC`, `CBC_ENC`, `CBC_DEC` (41_block_modes.md R120 to R128).
The data paths take the single-block function as an argument; the commands give them `E_c` or `D_c` of `CTX`. -/

namespace Sys2Proof.Machine

/-- CBC encryption (R123): `C_i = E(P_i xor cv)`, and `cv` becomes `C_i`. -/
def cbcEncrypt (enc : Block → Block) : Block → List Block → List Block
  | _, [] => []
  | cv, p :: ps => enc (p.xor cv) :: cbcEncrypt enc (enc (p.xor cv)) ps

/-- CBC decryption (R124): `P_i = D(X_i) xor cv`, and `cv` becomes the ciphertext block `X_i` just consumed. -/
def cbcDecrypt (dec : Block → Block) : Block → List Block → List Block
  | _, [] => []
  | cv, x :: xs => (dec x).xor cv :: cbcDecrypt dec x xs

/-- `block_mode_checks` (R120). -/
def blockModeChecks (tok : Nat) (s : State) (rs : List Region) : List (Option Err) :=
  ownerChecks tok s.orch ++ [checkKeyLoaded s.orch, checkBlockLength s.orch.desc] ++ regionChecks s.platform none rs

/-- The input blocks of a block-mode command: `LEN/16` of them in every key class (R125). -/
def inputBlocks (s : State) : List Block :=
  s.mem.readBlocks s.orch.desc.inBase s.orch.desc.blockCount

/-- The IV of a CBC command, always read from `IV_ADDR` (R126, R128). -/
def ivBlock (s : State) : Block :=
  s.mem.readBlock s.orch.desc.ivBase

/-- The one write of a block-mode command: the output blocks at `OUT_ADDR`; nothing when L = 0. -/
def outputWrite (s : State) (out : List Block) : List (Nat × List Byte) :=
  [(s.orch.desc.outBase, concatBlocks out)]

/-- `ECB_ENC` (R121). -/
def execEcbEnc (tok : Nat) (s : State) : Result :=
  command s (blockModeChecks tok s (ecbRegions s.orch.desc))
    (outputWrite s ((inputBlocks s).map (encryptBlock s.orch.ctx))) s.orch

/-- `ECB_DEC` (R122). -/
def execEcbDec (tok : Nat) (s : State) : Result :=
  command s (blockModeChecks tok s (ecbRegions s.orch.desc))
    (outputWrite s ((inputBlocks s).map (decryptBlock s.orch.ctx))) s.orch

/-- `CBC_ENC` (R123). The IV buffer is not written (R126). -/
def execCbcEnc (tok : Nat) (s : State) : Result :=
  command s (blockModeChecks tok s (cbcRegions s.orch.desc))
    (outputWrite s (cbcEncrypt (encryptBlock s.orch.ctx) (ivBlock s) (inputBlocks s))) s.orch

/-- `CBC_DEC` (R124). -/
def execCbcDec (tok : Nat) (s : State) : Result :=
  command s (blockModeChecks tok s (cbcRegions s.orch.desc))
    (outputWrite s (cbcDecrypt (decryptBlock s.orch.ctx) (ivBlock s) (inputBlocks s))) s.orch

end Sys2Proof.Machine
end

