-- ==== Sys2Proof/Machine/Ctr.lean ====
section
/-! DEFINITION. ModeDriver streaming counter mode: `CTR_ENC`, `CTR_DEC` (42_ctr_stream.md R140 to R149). -/

namespace Sys2Proof.Machine

/-- `if off = 0`: the cache is regenerated from the counter and the counter is incremented (R142). The counter moves
when a keystream block is generated, not when it is used up (90_conflicts.md C1). -/
def CtrStream.refresh (enc : Block → Block) (st : CtrStream) : CtrStream :=
  if st.offset = 0 then ⟨st.counter.increment, enc st.counter, 0⟩ else st

/-- The stream with `n` more bytes of its cache used up: `off <- (off + n) mod 16` (R142). -/
def CtrStream.consume (st : CtrStream) (n : Nat) : CtrStream :=
  ⟨st.counter, st.cache, (st.offset + n) % Config.blockBytes⟩

/-- How many bytes one turn of the loop consumes: `min(16 - off, L - i)` (R142). -/
def CtrStream.chunk (st : CtrStream) (input : List Byte) : Nat :=
  min (Config.blockBytes - st.offset) input.length

/-- `ks[off .. off+n)` (R142). -/
def CtrStream.keystream (st : CtrStream) (n : Nat) : List Byte :=
  (st.cache.bytes.drop st.offset).take n

/-- The loop of `ctr_process` (R142). Each turn consumes at least one byte when `off <= 15`, so the number of input
bytes is fuel enough. -/
def ctrLoop (enc : Block → Block) : Nat → CtrStream → List Byte → List Byte × CtrStream
  | 0, st, _ => ([], st)
  | _ + 1, st, [] => ([], st)
  | fuel + 1, st, x :: xs =>
    let st1 := st.refresh enc
    let n := st1.chunk (x :: xs)
    let rest := ctrLoop enc fuel (st1.consume n) ((x :: xs).drop n)
    (xorBytes ((x :: xs).take n) (st1.keystream n) ++ rest.1, rest.2)

/-- `ctr_process` (R142): the output bytes and the stream state after them. -/
def ctrProcess (enc : Block → Block) (st : CtrStream) (input : List Byte) : List Byte × CtrStream :=
  ctrLoop enc input.length st input

/-- The stream state a command starts from (R141): from the IV when INIT, else the record as stored. -/
def startStream (init : Bool) (m : Memory) (d : Descriptor) : CtrStream :=
  if init then ⟨m.readBlock d.ivBase, Block.zero, 0⟩
  else ⟨m.readBlock d.streamBase, m.readBlock (d.streamBase + 16), storedOffset m d⟩

/-- The 33-byte record of a stream state (R33). -/
def CtrStream.record (st : CtrStream) : List Byte :=
  st.counter.bytes ++ st.cache.bytes ++ [BitVec.ofNat 8 st.offset]

/-- The checks of a CTR command (R143). There is no length check: "CTR length is arbitrary". -/
def ctrChecks (init : Bool) (tok : Nat) (s : State) : List (Option Err) :=
  ownerChecks tok s.orch ++ [checkKeyLoaded s.orch] ++ regionChecks s.platform none (ctrRegions init s.orch.desc)
    ++ [checkStream init s.mem s.orch.desc]

/-- What a CTR command computes, under `E_c` in both directions (R143, R144). -/
def ctrResult (init : Bool) (s : State) : List Byte × CtrStream :=
  ctrProcess (encryptBlock s.orch.ctx) (startStream init s.mem s.orch.desc)
    (s.mem.readBytes s.orch.desc.inBase s.orch.desc.length)

/-- The writes of a CTR command, in order: the output (nothing when L = 0), then the record (R143). -/
def ctrWrites (s : State) (r : List Byte × CtrStream) : List (Nat × List Byte) :=
  [(s.orch.desc.outBase, r.1), (s.orch.desc.streamBase, r.2.record)]

/-- `CTR_ENC` (R143). -/
def execCtrEnc (init : Bool) (tok : Nat) (s : State) : Result :=
  command s (ctrChecks init tok s) (ctrWrites s (ctrResult init s)) s.orch

/-- `CTR_DEC` (R144): the pseudocode of `CTR_ENC`, unchanged; it uses `E_c`, not `D_c`. -/
def execCtrDec (init : Bool) (tok : Nat) (s : State) : Result :=
  command s (ctrChecks init tok s) (ctrWrites s (ctrResult init s)) s.orch

end Sys2Proof.Machine
end

