-- ==== Sys2Proof/Machine/Lock.lean ====
section
/-! DEFINITION. EngineLock and KeyScheduler: `ACQUIRE`, `RELEASE`, `KEY_INIT` (40_key_and_lock.md R101 to R105). -/

namespace Sys2Proof.Machine

/-- The token after `g`: 1, 2, ..., 255, 1, ...; 0 is never granted (R101). -/
def nextToken (g : BitVec 8) : BitVec 8 :=
  if g = 255#8 then 1#8 else g + 1#8

/-- `ACQUIRE` (R101). `TOKEN` is ignored (R74). -/
def execAcquire (_tok : Nat) (s : State) : Result :=
  command s [checkFree s.orch] []
    { s.orch with gen := nextToken s.orch.gen, owner := nextToken s.orch.gen, locked := true }

/-- `RELEASE` (R102): frees the lock and destroys the context; `GEN` is kept. -/
def execRelease (tok : Nat) (s : State) : Result :=
  command s (ownerChecks tok s.orch) []
    { s.orch with locked := false, owner := 0#8, ctx := AesContext.none, macReady := false }

/-- The context `KEY_INIT` loads: a copy of the key bytes (R103). -/
def loadedContext (m : Memory) (d : Descriptor) : AesContext :=
  ⟨true, (keyClassOfBits d.keyBits.toNat).getD .k128, m.readBytes d.keyBase d.keyLen.toNat⟩

/-- `KEY_INIT` (R103). -/
def execKeyInit (tok : Nat) (s : State) : Result :=
  command s
    (ownerChecks tok s.orch ++ [checkKeyLength s.orch.desc]
      ++ regionChecks s.platform none (keyInitRegions s.orch.desc))
    [] { s.orch with ctx := loadedContext s.mem s.orch.desc, macReady := false }

end Sys2Proof.Machine
end

