-- ==== Sys2Proof/Machine/Mac.lean ====
section
/-! DEFINITION. MacEngine, the CBC-MAC tag constructor: `MAC_LOAD_KEY`, `MAC_TAG` (43_mac.md R160 to R166). -/

namespace Sys2Proof.Machine

/-- The loop of `MAC_TAG` (R162) from chaining value `cv`: the scratch blocks of all blocks but the last, and the tag of
the last. The chaining value is the MacAccumulator (R34). With no block there is no tag: R162 raises `InvalidLength`
first, and `cv` stands for it here. -/
def macChain (enc : Block → Block) : Block → List Block → List Block × Block
  | cv, [] => ([], cv)
  | cv, [m] => ([], enc (cv.xor m))
  | cv, m :: m' :: ms =>
    let c := enc (m.xor cv)
    let rest := macChain enc c (m' :: ms)
    (c :: rest.1, rest.2)

/-- `MAC_LOAD_KEY` (R161): one block under `E_c`, returned to the caller only (R165), and the MacEngine is Ready. -/
def execMacLoadKey (tok : Nat) (s : State) : Result :=
  command s
    (ownerChecks tok s.orch ++ [checkKeyLoaded s.orch, checkOneBlock s.orch.desc]
      ++ regionChecks s.platform none (macLoadKeyRegions s.orch.desc))
    [(s.orch.desc.outBase, (encryptBlock s.orch.ctx (s.mem.readBlock s.orch.desc.inBase)).bytes)]
    { s.orch with macReady := true }

/-- `iv_seed` (R162): from `IV_ADDR` when FLAG = 1, else `0^16`. -/
def macSeed (seed : Bool) (s : State) : Block :=
  if seed then s.mem.readBlock s.orch.desc.ivBase else Block.zero

/-- What `MAC_TAG` computes: the scratch blocks and the tag (R162). No subkey and no padding (R165). -/
def macResult (seed : Bool) (s : State) : List Block × Block :=
  macChain (encryptBlock s.orch.ctx) (macSeed seed s)
    (s.mem.readBlocks s.orch.desc.inBase s.orch.desc.blockCount)

/-- `MAC_TAG` (R162): the scratch over the data blocks but the last (none when n = 1), then the tag, written last
(R163). -/
def execMacTag (seed : Bool) (tok : Nat) (s : State) : Result :=
  command s
    (ownerChecks tok s.orch ++ [checkKeyLoaded s.orch, checkMacReady s.orch, checkMacLength s.orch.desc]
      ++ regionChecks s.platform (some (.data, .tag)) (macTagRegions seed s.orch.desc))
    [(s.orch.desc.inBase, concatBlocks (macResult seed s).1), (s.orch.desc.outBase, (macResult seed s).2.bytes)]
    s.orch

end Sys2Proof.Machine
end

