-- ==== Sys2Proof/Machine/Dispatch.lean ====
section
/-! DEFINITION. The command transition, one arm per command (30_encoding.md R78). -/

namespace Sys2Proof.Machine

def exec (i : Instr) (s : State) : Host.Outcome State Fault Refusal :=
  match i with
  | .acquire tok => Sys2Proof.Machine.execAcquire tok s
  | .release tok => Sys2Proof.Machine.execRelease tok s
  | .keyInit tok => Sys2Proof.Machine.execKeyInit tok s
  | .ecbEnc tok => Sys2Proof.Machine.execEcbEnc tok s
  | .ecbDec tok => Sys2Proof.Machine.execEcbDec tok s
  | .cbcEnc tok => Sys2Proof.Machine.execCbcEnc tok s
  | .cbcDec tok => Sys2Proof.Machine.execCbcDec tok s
  | .ctrEnc init tok => Sys2Proof.Machine.execCtrEnc init tok s
  | .ctrDec init tok => Sys2Proof.Machine.execCtrDec init tok s
  | .macTag seed tok => Sys2Proof.Machine.execMacTag seed tok s
  | .macLoadKey tok => Sys2Proof.Machine.execMacLoadKey tok s

end Sys2Proof.Machine
end

