-- ==== Sys2Proof/Machine/Flags.lean ====
section
/-! DEFINITION. The `STATUS` word (10_state.md R24): the block's one status register, a view of its state. -/

namespace Sys2Proof.Machine

/-- The code of a key class in `STATUS.KEY_CLASS` (R24). -/
def keyClassCode : KeyClass → Nat
  | .k128 => 0
  | .k192 => 1
  | .k256 => 2

/-- `STATUS.KEY_CLASS`: 0 when `KEY_VALID = 0` (R24). -/
def Orch.keyClassField (o : Orch) : Nat :=
  if o.ctx.valid then keyClassCode o.ctx.cls else 0

/-- `STATUS` as read (R24): FAIL 0, ERR 7:4, LOCKED 8, KEY_VALID 9, MAC_READY 10, KEY_CLASS 12:11, TOKEN 23:16; the
reserved bits read 0. -/
def Orch.status (o : Orch) : Word :=
  BitVec.ofNat 32 (o.fail.toNat + 2 ^ 4 * o.err.toNat + 2 ^ 8 * o.locked.toNat + 2 ^ 9 * o.ctx.valid.toNat
    + 2 ^ 10 * o.macReady.toNat + 2 ^ 11 * o.keyClassField + 2 ^ 16 * o.owner.toNat)

end Sys2Proof.Machine
end

