-- ==== Sys2Proof/Machine/HostBus.lean ====
section
/-! DEFINITION. The host's side of the block: the register window (10_state.md R21 to R26), a write of `CMD`
(30_encoding.md R78), host accesses to caller memory (R20), reset (70_reset_and_hazards.md R210) and the end of a
low-power mode (60_exceptions.md R193). -/

namespace Sys2Proof.Machine

/-- A write of `w` to `CMD` (R78): decode, then the command; an illegal word raises `InvalidCommand` (R77). -/
def issue (w : Word) (s : State) : Result :=
  match decode w with
  | .ok i => exec i s
  | .error _ => .next (s.raise .invalidCommand)

/-- The slot at a word offset of the window (R21). -/
def windowSlot (off : Nat) : WindowSlot :=
  match off with
  | 0x00 => .cmd
  | 0x04 => .status
  | 0x10 => .desc .keyBits
  | 0x14 => .desc .keyLen
  | 0x18 => .desc .keyAddr
  | 0x1C => .desc .inAddr
  | 0x20 => .desc .outAddr
  | 0x24 => .desc .len
  | 0x28 => .desc .ivAddr
  | 0x2C => .desc .streamAddr
  | _ => .reserved

/-- A word write at an offset of the window: `CMD` starts a command (R23), `STATUS` and the reserved slots ignore it
(R21, R24), a descriptor register stores it whatever the lock says (R25, R26). -/
def windowWrite (off : Nat) (v : Word) (s : State) : Result :=
  match windowSlot off with
  | .cmd => issue v s
  | .status => .next s
  | .reserved => .next s
  | .desc r => .next (s.setDesc r v)

/-- What a word read at an offset of the window returns: `CMD` and the reserved slots 0 (R21, R23), no side effect
(R24). -/
def windowRead (off : Nat) (s : State) : Word :=
  match windowSlot off with
  | .cmd => 0#32
  | .status => s.orch.status
  | .reserved => 0#32
  | .desc r => s.orch.desc.get r

/-- The width of an access in bytes. -/
def AccessSize.bytes : AccessSize → Nat
  | .byte => 1
  | .half => 2
  | .word => 4

/-- Where a host access lands. -/
inductive Target where
  /-- An aligned word of the window, at this offset. -/
  | slot (off : Nat)
  /-- A byte of caller memory. -/
  | memoryByte
  /-- Any other access that touches the window (R22). -/
  | windowMisuse
  /-- A halfword or word outside the window. -/
  | wideElsewhere
deriving DecidableEq, Repr

/-- R22: the window takes 32-bit accesses at offsets that are multiples of 4; a host access outside it is not an
access to the block. DESIGN CHOICE (log 17): the spec gives `AES_BASE` no range; offsets are added in unbounded
integers, so the window does not wrap past 0xFFFFFFFF, and slots past it have no bus address. -/
def hostTarget (p : Platform) (addr : Word) (size : AccessSize) : Target :=
  let a := addr.toNat
  let base := p.aesBase.toNat
  if base < a + size.bytes ∧ a < base + Config.windowBytes then
    if size = .word ∧ base ≤ a ∧ (a - base) % 4 = 0 then .slot (a - base) else .windowMisuse
  else if size = .byte then .memoryByte else .wideElsewhere

/-- A host agent's bus write. DESIGN CHOICE (log 18): the platform has set up any clock or power gate (R213), so every
access to the window is performed. -/
def hostWrite (addr : Word) (size : AccessSize) (v : Word) (s : State) : Result :=
  match hostTarget s.platform addr size with
  | .slot off => windowWrite off v s
  | .memoryByte => .next { s with mem := s.mem.setByte addr.toNat (v.setWidth 8) }
  | .windowMisuse => .refused .windowAccessNotAlignedWord
  | .wideElsewhere => .refused .wideHostAccessOutsideWindow

/-- A host agent's bus read. The block is enabled: DESIGN CHOICE (log 18). -/
def hostRead (addr : Word) (size : AccessSize) (s : State) : Result :=
  match hostTarget s.platform addr size with
  | .slot off => .next (s.answer (windowRead off s))
  | .memoryByte => .next (s.answer ((s.mem.byteAt addr.toNat).setWidth 32))
  | .windowMisuse => .refused .windowAccessNotAlignedWord
  | .wideElsewhere => .refused .wideHostAccessOutsideWindow

/-- The reset event (R210): the block's state as R37 says; caller memory is unchanged. -/
def State.resetBlock (s : State) : State :=
  { s with orch := Orch.reset }

/-- The chip leaves a low-power mode (R193): every piece of the block's state is unknown. What is
kept is the model's choice: DESIGN CHOICE (log 6). -/
def State.lowPowerExit (s : State) : State :=
  { s with orch := Config.orchAfterLowPower s.wakeCount, wakeCount := s.wakeCount + 1 }

/-- One access or event. -/
def perform (a : HostAccess) (s : State) : Result :=
  match a with
  | .write addr size v => hostWrite addr size v s
  | .read addr size => hostRead addr size s
  | .reset => .next s.resetBlock
  | .lowPowerExit => .next s.lowPowerExit

end Sys2Proof.Machine
end

