-- ==== Sys2Proof/Machine/Step.lean ====
section
/-! DEFINITION. One step: the next host access or platform event takes effect whole (10_state.md R20, R22). -/

namespace Sys2Proof.Machine

/-- With nothing pending the block waits (R211): it never steps on its own (R20). -/
def step (s : State) : Host.Outcome State Fault Refusal :=
  match s.pending with
  | [] => .next s
  | a :: rest => perform a { s with pending := rest }

/-- The block fetches no instructions (R52): a command comes as a host's word write of `CMD`, at `AES_BASE` + 0.
This puts that write at the head of the accesses to come (log 3). -/
def State.withFetchWord (s : State) (nbits w : Nat) : State :=
  { s with pending := .write s.platform.aesBase .word (BitVec.ofNat 32 (w % 2 ^ nbits)) :: s.pending }

end Sys2Proof.Machine
end

