-- ==== Sys2Proof/Safety.lean ====
section
/-! DEFINITION. The words claims are stated in: the checks of 30_encoding.md R79 as propositions, written from the
rules' own text and apart from the functions of Operands.lean; the legal states (10_state.md R27 to R32); what a
command leaves alone. -/

namespace Sys2Proof

open Machine

/-! ### Kinds of commands -/

/-- `ACQUIRE`, the one command that needs no token (R104). -/
def Instr.isAcquire : Instr → Bool
  | .acquire _ => true
  | _ => false

/-- The commands of R79's step 3: ECB, CBC, CTR, `MAC_LOAD_KEY`, `MAC_TAG`. -/
def Instr.isCipher : Instr → Bool
  | .acquire _ | .release _ | .keyInit _ => false
  | .ecbEnc _ | .ecbDec _ | .cbcEnc _ | .cbcDec _ | .ctrEnc _ _ | .ctrDec _ _ | .macTag _ _ | .macLoadKey _ => true

/-- `MAC_TAG`. -/
def Instr.isMacTag : Instr → Bool
  | .macTag _ _ => true
  | _ => false

/-- R58's table, written out: `L = reg[LEN]`, `n = L / 16`. -/
def Instr.regions (d : Descriptor) : Instr → List Region
  | .acquire _ | .release _ => []
  | .keyInit _ => [⟨.key, d.keyAddr.toNat, d.keyLen.toNat, .r⟩]
  | .ecbEnc _ | .ecbDec _ =>
    [⟨.input, d.inAddr.toNat, d.len.toNat, .r⟩, ⟨.output, d.outAddr.toNat, d.len.toNat, .w⟩]
  | .cbcEnc _ | .cbcDec _ =>
    [⟨.input, d.inAddr.toNat, d.len.toNat, .r⟩, ⟨.output, d.outAddr.toNat, d.len.toNat, .w⟩,
      ⟨.iv, d.ivAddr.toNat, 16, .r⟩]
  | .ctrEnc true _ | .ctrDec true _ =>
    [⟨.input, d.inAddr.toNat, d.len.toNat, .r⟩, ⟨.output, d.outAddr.toNat, d.len.toNat, .w⟩,
      ⟨.stream, d.streamAddr.toNat, 33, .rw⟩, ⟨.iv, d.ivAddr.toNat, 16, .r⟩]
  | .ctrEnc false _ | .ctrDec false _ =>
    [⟨.input, d.inAddr.toNat, d.len.toNat, .r⟩, ⟨.output, d.outAddr.toNat, d.len.toNat, .w⟩,
      ⟨.stream, d.streamAddr.toNat, 33, .rw⟩]
  | .macTag true _ =>
    [⟨.data, d.inAddr.toNat, d.len.toNat, if 1 < d.len.toNat / 16 then .rw else .r⟩,
      ⟨.tag, d.outAddr.toNat, 16, .w⟩, ⟨.seed, d.ivAddr.toNat, 16, .r⟩]
  | .macTag false _ =>
    [⟨.data, d.inAddr.toNat, d.len.toNat, if 1 < d.len.toNat / 16 then .rw else .r⟩,
      ⟨.tag, d.outAddr.toNat, 16, .w⟩]
  | .macLoadKey _ => [⟨.input, d.inAddr.toNat, 16, .r⟩, ⟨.output, d.outAddr.toNat, 16, .w⟩]

/-- The length rule of the command's family is broken (R79 step 6: R120, R161, R162). -/
def Instr.lengthBroken (d : Descriptor) : Instr → Prop
  | .acquire _ | .release _ | .keyInit _ | .ctrEnc _ _ | .ctrDec _ _ => False
  | .ecbEnc _ | .ecbDec _ | .cbcEnc _ | .cbcDec _ => ¬ 16 ∣ d.len.toNat
  | .macTag _ _ => d.len.toNat = 0 ∨ ¬ 16 ∣ d.len.toNat
  | .macLoadKey _ => d.len.toNat ≠ 16

/-- The commands whose FLAG = 0 reads the stored record (R79 step 9). -/
def Instr.resumesStream : Instr → Bool
  | .ctrEnc f _ | .ctrDec f _ => !f
  | .acquire _ | .release _ | .keyInit _ | .ecbEnc _ | .ecbDec _ | .cbcEnc _ | .cbcDec _ | .macTag _ _
  | .macLoadKey _ => false

/-- `KEY_INIT`. -/
def Instr.isKeyInit : Instr → Bool
  | .keyInit _ => true
  | _ => false

/-- A CTR command of either direction, FLAG = `init`. -/
def Instr.isCtr (init : Bool) (i : Instr) : Prop :=
  ∃ tok, i = .ctrEnc init tok ∨ i = .ctrDec init tok

/-! ### Command words -/

/-- R77's four cases, on the word as a number: a reserved bit, MODE 6 or 7, a (MODE, OP) pair that is no row of R76,
FLAG = 1 in a row whose FLAG column is 0. -/
def IllegalWord (w : Word) : Prop :=
  w &&& 0xFF00FEC8#32 ≠ 0#32 ∨
    w.toNat % 8 ∈ [6, 7] ∨
    (w.toNat % 8, w.toNat / 16 % 4) ∈
      [(0, 2), (0, 3), (1, 1), (1, 2), (1, 3), (2, 2), (2, 3), (3, 2), (3, 3), (4, 2), (4, 3), (5, 1), (5, 3)] ∨
    (w.toNat / 256 % 2 = 1 ∧
      (w.toNat % 8, w.toNat / 16 % 4) ∈ [(0, 0), (0, 1), (1, 0), (2, 0), (2, 1), (3, 0), (3, 1), (5, 2)])

end Sys2Proof

namespace Sys2Proof.Machine

/-! ### The checks of R79 -/

/-- R79's steps after decoding, in its order. -/
inductive Check where
  /-- 2a -/
  | engineHeld
  /-- 2b -/
  | engineFree
  /-- 2c -/
  | wrongToken
  /-- 3 -/
  | noKey
  /-- 4 -/
  | noMacKey
  /-- 5 -/
  | badKeyLength
  /-- 6 -/
  | badLength
  /-- 7 -/
  | badAccess
  /-- 8 -/
  | aliasing
  /-- 9 -/
  | badOffset
deriving DecidableEq, Repr

/-- The place of a check in R79's order. -/
def Check.rank : Check → Nat
  | .engineHeld => 0
  | .engineFree => 1
  | .wrongToken => 2
  | .noKey => 3
  | .noMacKey => 4
  | .badKeyLength => 5
  | .badLength => 6
  | .badAccess => 7
  | .aliasing => 8
  | .badOffset => 9

/-- The `ERR` code a check raises (R79, R180). -/
def Check.code : Check → BitVec 4
  | .engineHeld => 3#4
  | .engineFree => 6#4
  | .wrongToken => 3#4
  | .noKey => 7#4
  | .noMacKey => 8#4
  | .badKeyLength => 1#4
  | .badLength => 2#4
  | .badAccess => 9#4
  | .aliasing => 4#4
  | .badOffset => 10#4

/-- R55: the region does not wrap, and `MemAdmit` holds of every byte for its access. -/
def Region.admitted (p : Platform) (r : Region) : Prop :=
  r.base + r.size ≤ 2 ^ 32 ∧
    ∀ i, i < r.size →
      (r.access.reads = true → p.admits (r.base + i) .read = true) ∧
        (r.access.writes = true → p.admits (r.base + i) .write = true)

/-- R13, R57: the pair may not stand in one command. -/
def Region.clash (i : Instr) (r q : Region) : Prop :=
  r.name ≠ q.name ∧ (r.access.writes = true ∨ q.access.writes = true) ∧
    r.size ≠ 0 ∧ q.size ≠ 0 ∧ r.base < q.base + q.size ∧ q.base < r.base + r.size ∧
    ¬ (i.isMacTag = true ∧ (r.name = .data ∧ q.name = .tag ∨ r.name = .tag ∧ q.name = .data))

/-- The check applies to the command and fails (R79). -/
def Check.fails (i : Instr) (s : State) : Check → Prop
  | .engineHeld => i.isAcquire = true ∧ s.orch.locked = true
  | .engineFree => i.isAcquire = false ∧ s.orch.locked = false
  | .wrongToken => i.isAcquire = false ∧ i.token ≠ s.orch.owner.toNat
  | .noKey => i.isCipher = true ∧ s.orch.ctx.valid = false
  | .noMacKey => i.isMacTag = true ∧ s.orch.macReady = false
  | .badKeyLength => i.isKeyInit = true ∧
      ((s.orch.desc.keyBits.toNat ≠ 128 ∧ s.orch.desc.keyBits.toNat ≠ 192 ∧ s.orch.desc.keyBits.toNat ≠ 256) ∨
        s.orch.desc.keyLen.toNat * 8 ≠ s.orch.desc.keyBits.toNat)
  | .badLength => i.lengthBroken s.orch.desc
  | .badAccess => ∃ r ∈ i.regions s.orch.desc, r.size ≠ 0 ∧ ¬ r.admitted s.platform
  | .aliasing => ∃ r ∈ i.regions s.orch.desc, ∃ q ∈ i.regions s.orch.desc, r.clash i q
  | .badOffset => i.resumesStream = true ∧ 15 < (s.mem.byteAt (s.orch.desc.streamAddr.toNat + 32)).toNat

/-- No check of R79 fails: the command completes (R80). -/
def Clear (i : Instr) (s : State) : Prop :=
  ∀ c : Check, ¬ c.fails i s

/-- The first check of R79 that fails. -/
def FirstFailure (i : Instr) (s : State) (c : Check) : Prop :=
  c.fails i s ∧ ∀ c' : Check, c'.rank < c.rank → ¬ c'.fails i s

/-! ### Legal states -/

/-- What R27 to R32 say of every reachable state of the block. `owner = gen` while locked: R28 calls `GEN` the last
token granted; `macReady → valid`: R31, R161. Both DEDUCED from R101 to R103 and R161, and a claim proves them. -/
structure Orch.Legal (o : Orch) : Prop where
  held : o.locked = true → o.owner ≠ 0#8 ∧ o.owner = o.gen
  free : o.locked = false → o.owner = 0#8 ∧ o.ctx.valid = false ∧ o.macReady = false
  ready : o.macReady = true → o.ctx.valid = true
  keyLength : o.ctx.key.length = keyBytes o.ctx.cls
  errCode : o.err.toNat ≤ 10
  failCode : o.fail = true ↔ o.err ≠ 0#4

/-- Caller memory in canonical form, inside the address space (R50). -/
structure Memory.Legal (m : Memory) : Prop where
  wf : m.wf
  inSpace : ∀ c ∈ m, c.1 < 2 ^ 32

/-- A legal state. -/
structure State.Legal (s : State) : Prop where
  orch : s.orch.Legal
  mem : s.mem.Legal

/-! ### What a command leaves alone -/

/-- Everything that is neither the block's state nor caller memory. -/
def SameOutside (s t : State) : Prop :=
  t.platform = s.platform ∧ t.pending = s.pending ∧ t.readData = s.readData ∧ t.wakeCount = s.wakeCount

/-- Every byte of caller memory outside `[a, a + n)` reads as before. -/
def SameMemoryBut (a n : Nat) (s t : State) : Prop :=
  ∀ x, ¬ (a ≤ x ∧ x < a + n) → t.mem.byteAt x = s.mem.byteAt x

/-- Every byte of caller memory reads as before. -/
def SameMemory (s t : State) : Prop :=
  ∀ x, t.mem.byteAt x = s.mem.byteAt x

/-- The command reports success: `FAIL = 0`, `ERR = 0` (R12, R80). -/
def succeeded (o : Orch) : Orch :=
  { o with fail := false, err := 0#4 }

/-- The whole effect of a failure with a code (R81). -/
def failedWith (code : BitVec 4) (s : State) : State :=
  { s with orch := { s.orch with fail := true, err := code } }

/-- A command that fails a check reports the first one, and that is its whole effect (R79, R81). -/
def ReportsFirstFailure (i : Instr) (s : State) : Prop :=
  ∀ c, FirstFailure i s c → exec i s = .next (failedWith c.code s)

/-! ### What a step does -/

/-- The next host access writes `w` to `CMD`, at `AES_BASE` + 0 (R21, R23). -/
def WritesCmd (s : State) (w : Word) : Prop :=
  ∃ rest, s.pending = .write s.platform.aesBase .word w :: rest

/-- The next host access writes a word that is the command `i` (R78). -/
def Runs (s : State) (i : Instr) : Prop :=
  ∃ w, WritesCmd s w ∧ decode w = .ok i

/-- The next event resets the block (R210). -/
def Resets (s : State) : Prop :=
  ∃ rest, s.pending = .reset :: rest

/-- The next event is the end of a low-power mode, after which the block's state is unknown (R193). -/
def Wakes (s : State) : Prop :=
  ∃ rest, s.pending = .lowPowerExit :: rest

/-- The offset of a descriptor register in the window (R21). -/
def DescReg.offset : DescReg → Nat
  | .keyBits => 0x10
  | .keyLen => 0x14
  | .keyAddr => 0x18
  | .inAddr => 0x1C
  | .outAddr => 0x20
  | .len => 0x24
  | .ivAddr => 0x28
  | .streamAddr => 0x2C

/-- The bus address of an offset of the window (R21), a 32-bit sum. It is the slot `hostTarget` finds when
`AES_BASE + 64 <= 2^32`; that the window does not wrap above that is the model's choice (log 17). -/
def Platform.windowAddr (p : Platform) (off : Nat) : Word :=
  p.aesBase + BitVec.ofNat 32 off

/-! ### Closed forms of the modes -/

/-- The chaining values of CBC over the blocks `m 0, m 1, ...` from `iv` (R123, R162): `c 0 = E(m 0 xor iv)`,
`c (j+1) = E(m (j+1) xor c j)`. -/
def cbcChain (enc : Block → Block) (iv : Block) (m : Nat → Block) : Nat → Block
  | 0 => enc ((m 0).xor iv)
  | j + 1 => enc ((m (j + 1)).xor (cbcChain enc iv m j))

/-- The counter block `k` increments after `cb`, modulo 2^128 (R146). -/
def counterAfter (cb : Block) (k : Nat) : Block :=
  Block.unbe ((cb.be + k) % 2 ^ 128)

/-- How many keystream blocks a stream that stands at `off` has generated when `n` more bytes are consumed: the block
in use at the start is not counted (R142, R148). -/
def blocksGenerated (off n : Nat) : Nat :=
  if off = 0 then (n + 15) / 16 else (off + n + 15) / 16 - 1

/-- Byte `j` of the keystream of a stream (R142, R148): what is left of the cache first, then the blocks of the
successive counter values. -/
def keystreamByte (enc : Block → Block) (st : CtrStream) (j : Nat) : Byte :=
  if st.offset = 0 then (enc (counterAfter st.counter (j / 16))).bytes.getD (j % 16) 0#8
  else if st.offset + j < 16 then st.cache.bytes.getD (st.offset + j) 0#8
  else (enc (counterAfter st.counter ((st.offset + j) / 16 - 1))).bytes.getD ((st.offset + j) % 16) 0#8

/-- The stream after `n` bytes (R142, R148). -/
def streamAfter (enc : Block → Block) (st : CtrStream) (n : Nat) : CtrStream where
  counter := counterAfter st.counter (blocksGenerated st.offset n)
  cache := if blocksGenerated st.offset n = 0 then st.cache
    else enc (counterAfter st.counter (blocksGenerated st.offset n - 1))
  offset := (st.offset + n) % 16

/-! ### A stream fed in chunks (R145) -/

/-- The 33 bytes of the stream record at a state's `STREAM_ADDR` (R33). -/
def State.record (s : State) : List Byte :=
  s.mem.readBytes s.orch.desc.streamBase 33

/-- `i` is a CTR command that reports success from `s`, ends in `t`, and turns the bytes `p` it reads into the bytes
`o` it writes. -/
def CtrChunk (init : Bool) (i : Instr) (p o : List Byte) (s t : State) : Prop :=
  i.isCtr init ∧ exec i s = .next t ∧ t.orch.fail = false ∧
    p = s.mem.readBytes s.orch.desc.inBase s.orch.desc.len.toNat ∧
    o = t.mem.readBytes s.orch.desc.outBase s.orch.desc.len.toNat

/-- A stream fed in any number of chunks (R145): from `s`, with FLAG = `init` on the first command and FLAG = 0 on the
others, of either direction, the bytes `p` in all become `o`, and the last command ends in `t`. Between two commands
the host may do anything that keeps `CTX` and the record's bytes: move the buffers and the record, release the engine
and take it again with the same key (R149). -/
inductive CtrStreamed : Bool → List Byte → List Byte → State → State → Prop where
  | last (init : Bool) (i : Instr) (p o : List Byte) (s t : State) (h : CtrChunk init i p o s t) :
      CtrStreamed init p o s t
  | chunk (init : Bool) (i : Instr) (p o p' o' : List Byte) (s t u v : State) (h : CtrChunk init i p o s t)
      (hw : u.mem.wf) (hc : u.orch.ctx = t.orch.ctx) (hr : u.record = t.record) (hu : CtrStreamed false p' o' u v) :
      CtrStreamed init (p ++ p') (o ++ o') s v

end Sys2Proof.Machine
end

