-- ==== Sys2Proof/Certificates/Slice0/Obligations.lean ====
section
/-! DEFINITION. The statements for the provers. -/

open Sys2Proof Sys2Proof.Machine

/-! ### Command words -/

/-- Words written out in 95_test_vectors.md section 2 decode to the commands they stand for (R70, R76). -/
def Obligations.SpecWordsDecodeToTheirCommands : Prop :=
  decode 0x00000000#32 = .ok (.acquire 0) ∧
  decode 0x00010010#32 = .ok (.release 1) ∧
  decode 0x00010001#32 = .ok (.keyInit 1) ∧
  decode 0x00FF0002#32 = .ok (.ecbEnc 255) ∧
  decode 0x00010013#32 = .ok (.cbcDec 1) ∧
  decode 0x00AB0114#32 = .ok (.ctrDec true 171) ∧
  decode 0x00010105#32 = .ok (.macTag true 1) ∧
  decode 0x00010025#32 = .ok (.macLoadKey 1)

/-- Decoding the word of a well-formed command gives the command back, with every operand (R70 to R76). -/
def Obligations.DecodeInvertsEncode : Prop :=
  ∀ i : Instr, i.wellFormed = true → decode (encode i) = .ok i

/-- A word that decodes is the word of the command it decodes to, and that command is well-formed: each word has one
meaning and no two words share one (R75, R76). -/
def Obligations.EncodeInvertsDecode : Prop :=
  ∀ (w : Word) (i : Instr), decode w = .ok i → i.wellFormed = true ∧ encode i = w

/-- "Exactly one row matches each legal word, and no row matches any other word" (R76): the row a legal word selects is
the row of the command it decodes to. -/
def Obligations.LegalWordSelectsExactlyOneRow : Prop :=
  ∀ w : Word,
    (∀ i, decode w = .ok i → ∃ r, opcodeTable.filter (fun r => r.selectedBy w) = [r] ∧ r.mnemonic = i.mnemonic) ∧
    (∀ e, decode w = .error e → opcodeTable.filter (fun r => r.selectedBy w) = [])

/-- R77: a word written to `CMD` that is illegal in one of the four cases raises `InvalidCommand` (code 5) with no effect
but `STATUS`; every other word is a command. -/
def Obligations.IllegalWordRaisesInvalidCommand : Prop :=
  ∀ (s : State) (w : Word), WritesCmd s w →
    (IllegalWord w → step s = .next (failedWith 5#4 { s with pending := s.pending.tail })) ∧
    (¬ IllegalWord w → ∃ i, decode w = .ok i)

/-- A step runs the decoded command: a write of `CMD` whose word decodes to `i` is `exec i`, on the state with that
access taken off the accesses to come, and nothing is added around it (R23, R78). `withFetchWord` places such a
write. With nothing pending the block waits: it never steps on its own (R20, R211); that a wait is a step that changes
nothing is the model's choice (log 2). -/
def Obligations.CmdWriteRunsTheDecodedCommand : Prop :=
  (∀ (s : State) (w : Word) (i : Instr), WritesCmd s w → decode w = .ok i →
    step s = exec i { s with pending := s.pending.tail }) ∧
  (∀ (s : State) (nbits w : Nat) (i : Instr), decodeTableWord nbits w = some i →
    step (s.withFetchWord nbits w) = exec i s) ∧
  (∀ s : State, s.pending = [] → step s = .next s)

/-! ### Reset and legal states -/

/-- R37: after the reset event every piece of the block's state has its reset value, `STATUS` reads 0, and caller memory
is unchanged. The state `State.reset` has the same block state. That the platform's parameters, the accesses still to
come and the model's own fields are kept is the model's choice (log 16), and no rule's. -/
def Obligations.ResetGivesTheResetValues : Prop :=
  ∀ s : State, Resets s → ∃ t, step s = .next t ∧
    t.orch.locked = false ∧ t.orch.owner = 0#8 ∧ t.orch.gen = 0#8 ∧
    t.orch.ctx.valid = false ∧ t.orch.ctx.cls = .k128 ∧ t.orch.ctx.key = List.replicate 16 0#8 ∧
    t.orch.macReady = false ∧ t.orch.fail = false ∧ t.orch.err = 0#4 ∧
    (∀ r : DescReg, t.orch.desc.get r = 0#32) ∧
    t.orch.status = 0#32 ∧ t.mem = s.mem ∧ t.orch = State.reset.orch ∧
    t.platform = s.platform ∧ t.pending = s.pending.tail ∧ t.readData = s.readData ∧ t.wakeCount = s.wakeCount

/-- The state after reset is legal (R27 to R32). -/
def Obligations.ResetStateIsLegal : Prop :=
  State.reset.Legal

/-- Every step keeps a state legal: the lock, the token, the context, the MacEngine and the result stay as R27 to R32
say, the key has the length of its class, and caller memory stays canonical and inside the address space. The one
exception is the end of a low-power mode, after which the block's state is unknown (R193, log 6). -/
def Obligations.StepKeepsLegalStates : Prop :=
  ∀ s t : State, s.Legal → ¬ Wakes s → step s = .next t → t.Legal

/-- Every step, the end of a low-power mode too, keeps caller memory canonical and inside the address space (R50, R55).
That memory is kept over a low-power mode is the model's choice (log 6). -/
def Obligations.StepKeepsMemoryLegal : Prop :=
  ∀ s t : State, s.mem.Legal → step s = .next t → t.mem.Legal

/-- R193: when the chip leaves a low-power mode every piece of the block's state is unknown. That the unknown is a free
value of its own for every such event is the model's form (log 6). That caller memory, the platform's parameters, the
accesses still to come and `readData` are kept is the model's choice (log 6), and no rule's: R193 speaks of the block's
state only. A reset after it gives a legal state again (R210; that the reset keeps memory's form: R37). -/
def Obligations.LowPowerExitLeavesTheBlockUnknown : Prop :=
  ∀ s : State, Wakes s →
    step s = .next { s with orch := Config.orchAfterLowPower s.wakeCount, wakeCount := s.wakeCount + 1, pending := s.pending.tail } ∧
    (∀ (t u : State), step s = .next t → Resets t → s.mem.Legal → step t = .next u → u.Legal)

/-! ### Checks, failure and completion of every command -/

/-- R79: a write of `CMD` runs the checks in the table's order and raises the first error that applies, with no other
effect; a command that passes every check cannot fail. -/
def Obligations.CommandsFollowTheCheckOrder : Prop :=
  ∀ (s u : State) (w : Word), WritesCmd s w → u = { s with pending := s.pending.tail } →
    (IllegalWord w → step s = .next (failedWith 5#4 u)) ∧
    (∀ i, ¬ IllegalWord w → decode w = .ok i →
      (∀ c, FirstFailure i u c → step s = .next (failedWith c.code u)) ∧
      (Clear i u → ∃ t, step s = .next t ∧ t.orch.fail = false ∧ t.orch.err = 0#4))

/-- R81: a command that reports an error failed one of its checks, and it wrote `FAIL` and `ERR` and nothing else. -/
def Obligations.FailedCommandWritesOnlyFailAndErr : Prop :=
  ∀ (i : Instr) (s t : State), exec i s = .next t → t.orch.fail = true →
    ∃ c : Check, FirstFailure i s c ∧ t = failedWith c.code s

/-- A command always answers a next state: it is complete when its `CMD` write is done (R78). Its result is success, or
failure with one of the codes 1 to 10 (R32, R180). -/
def Obligations.CommandAlwaysReportsAResult : Prop :=
  ∀ (i : Instr) (s : State), ∃ t, exec i s = .next t ∧
    ((t.orch.fail = false ∧ t.orch.err = 0#4) ∨
      (t.orch.fail = true ∧ 1 ≤ t.orch.err.toNat ∧ t.orch.err.toNat ≤ 10))

/-- No command writes a descriptor register (R25, R80), the platform's parameters, the accesses to come, or what a read
returned. -/
def Obligations.CommandLeavesDescriptorsAlone : Prop :=
  ∀ (i : Instr) (s t : State), exec i s = .next t → t.orch.desc = s.orch.desc ∧ SameOutside s t

/-- R182: a failed command repeated with no change to the state fails with the same code, and changes nothing more. -/
def Obligations.RetryFailsIdentically : Prop :=
  ∀ (i : Instr) (s t : State), exec i s = .next t → t.orch.fail = true → exec i t = .next t

/-- R104: no command but `ACQUIRE` succeeds without the outstanding token; while the engine is free it fails with
`NotOwner` (6), and with a wrong token with `EngineBusy` (3). -/
def Obligations.OnlyTheTokenHolderSucceeds : Prop :=
  ∀ (i : Instr) (s t : State), i.isAcquire = false → exec i s = .next t →
    (t.orch.fail = false → s.orch.locked = true ∧ i.token = s.orch.owner.toNat) ∧
    (s.orch.locked = false → t = failedWith 6#4 s) ∧
    (s.orch.locked = true → i.token ≠ s.orch.owner.toNat → t = failedWith 3#4 s)

/-! ### Who may change what -/

/-- The whole-machine rules of R27, R28, R30 and R31. Away from reset and from the end of a low-power mode, a step
changes the lock only by running `ACQUIRE` or `RELEASE`, `GEN` only by `ACQUIRE`, `CTX` only by `KEY_INIT` or `RELEASE`,
and `MAC_READY` only by `MAC_LOAD_KEY`, `KEY_INIT` or `RELEASE`. -/
def Obligations.EngineStateChangesOnlyByItsCommands : Prop :=
  ∀ s t : State, step s = .next t → ¬ Resets s → ¬ Wakes s →
    ((t.orch.locked ≠ s.orch.locked ∨ t.orch.owner ≠ s.orch.owner) →
      ∃ tok, Runs s (.acquire tok) ∨ Runs s (.release tok)) ∧
    (t.orch.gen ≠ s.orch.gen → ∃ tok, Runs s (.acquire tok)) ∧
    (t.orch.ctx ≠ s.orch.ctx → ∃ tok, Runs s (.keyInit tok) ∨ Runs s (.release tok)) ∧
    (t.orch.macReady ≠ s.orch.macReady →
      ∃ tok, Runs s (.macLoadKey tok) ∨ Runs s (.keyInit tok) ∨ Runs s (.release tok))

/-- R32 and R25: `FAIL` and `ERR` change only on a write of `CMD`, and a descriptor register only on a host's word write
of that register, which stores all 32 bits. The register's address is `AES_BASE` and its offset in unbounded integers;
that no other address reaches it when the base is above 2^32-64 is the model's choice (log 17). -/
def Obligations.ResultAndDescriptorsChangeOnlyByWindowWrites : Prop :=
  ∀ s t : State, step s = .next t → ¬ Resets s → ¬ Wakes s →
    ((t.orch.fail ≠ s.orch.fail ∨ t.orch.err ≠ s.orch.err) → ∃ w, WritesCmd s w) ∧
    (t.orch.desc ≠ s.orch.desc → ∃ (addr v : Word) (r : DescReg),
      s.pending.head? = some (.write addr .word v) ∧
      addr.toNat = s.platform.aesBase.toNat + r.offset ∧ t.orch.desc = s.orch.desc.set r v)

/-- R224: a held engine becomes free only by reset or by a `RELEASE` that carries its token (and the end of a low-power
mode leaves it unknown, R193): no other command and no timeout frees it. -/
def Obligations.OnlyReleaseOrResetFreesTheEngine : Prop :=
  ∀ s t : State, s.orch.locked = true → step s = .next t → t.orch.locked = false →
    Resets s ∨ Wakes s ∨ Runs s (.release s.orch.owner.toNat)

/-- R30: `CTX.key` is never readable. Two states that differ in the key alone take steps whose answers to a host read,
whose `STATUS` and whose every other piece of block state but the context itself are the same. -/
def Obligations.KeyIsNeverReadable : Prop :=
  ∀ (s s' t t' : State) (k : List Byte),
    s' = { s with orch := { s.orch with ctx := { s.orch.ctx with key := k } } } →
    ¬ Wakes s → step s = .next t → step s' = .next t' →
      t'.readData = t.readData ∧ t'.orch.status = t.orch.status ∧
      { t'.orch with ctx := AesContext.none } = { t.orch with ctx := AesContext.none } ∧
      t'.pending = t.pending ∧ t'.platform = t.platform

/-- A region of a command never reaches the register window: a command with a non-empty region that covers a byte of
it fails (R51; that `MemAdmit` denies the window is the model's choice, log 13, and so is where a window with a base
above 2^32-64 ends, log 17). -/
def Obligations.CommandNeverReachesTheWindow : Prop :=
  ∀ (i : Instr) (s t : State) (r : Region) (a : Nat), r ∈ i.regions s.orch.desc → r.base ≤ a → a < r.base + r.size →
    s.platform.aesBase.toNat ≤ a → a < s.platform.aesBase.toNat + 64 → exec i s = .next t →
    t.orch.fail = true ∧ t.mem = s.mem

/-! ### The register window -/

/-- R24: the fields of `STATUS`, bit by bit, reserved bits 0. -/
def Obligations.StatusShowsItsFields : Prop :=
  ∀ o : Orch,
    o.status.toNat % 2 = o.fail.toNat ∧
    o.status.toNat / 2 % 8 = 0 ∧
    o.status.toNat / 16 % 16 = o.err.toNat ∧
    o.status.toNat / 256 % 2 = o.locked.toNat ∧
    o.status.toNat / 512 % 2 = o.ctx.valid.toNat ∧
    o.status.toNat / 1024 % 2 = o.macReady.toNat ∧
    o.status.toNat / 2048 % 4 =
      (if o.ctx.valid = false then 0
        else match o.ctx.cls with
          | .k128 => 0
          | .k192 => 1
          | .k256 => 2) ∧
    o.status.toNat / 8192 % 8 = 0 ∧
    o.status.toNat / 65536 % 256 = o.owner.toNat ∧
    o.status.toNat / 16777216 = 0

/-- R25 and R26: a host's word write of a descriptor register is stored, all 32 bits, whatever the lock says, and
changes nothing else; a read of it returns the value. That the window must end by 2^32 for its offsets to have bus
addresses is the model's choice (log 17). -/
def Obligations.DescriptorReadsAsLastWritten : Prop :=
  ∀ (s : State) (r : DescReg) (v : Word) (rest : List HostAccess),
    s.platform.aesBase.toNat + 64 ≤ 2 ^ 32 →
    s.pending = .write (s.platform.windowAddr r.offset) .word v ::
      .read (s.platform.windowAddr r.offset) .word :: rest →
    ∃ t u : State, step s = .next t ∧ step t = .next u ∧
      u.readData = v ∧ t.orch.desc.get r = v ∧
      (∀ q : DescReg, q ≠ r → t.orch.desc.get q = s.orch.desc.get q) ∧
      { t.orch with desc := s.orch.desc } = s.orch ∧ t.mem = s.mem ∧ t.platform = s.platform ∧
      t.readData = s.readData ∧ t.wakeCount = s.wakeCount ∧
      u = { t with readData := v, pending := rest }

/-- R21, R23, R24: `STATUS` and the reserved slots ignore writes; `CMD` and the reserved slots read 0; a read of
`STATUS` returns the status word; no read has a side effect. That the window must end by 2^32 for its offsets to have
bus addresses is the model's choice (log 17). -/
def Obligations.CmdStatusAndReservedSlots : Prop :=
  ∀ (s : State) (off : Nat) (rest : List HostAccess),
    s.platform.aesBase.toNat + 64 ≤ 2 ^ 32 → off ∈ [0x00, 0x04, 0x08, 0x0C, 0x30, 0x34, 0x38, 0x3C] →
    (∀ v, off ≠ 0 → s.pending = .write (s.platform.windowAddr off) .word v :: rest →
      step s = .next { s with pending := rest }) ∧
    (s.pending = .read (s.platform.windowAddr off) .word :: rest →
      step s = .next { s with pending := rest, readData := if off = 4 then s.orch.status else 0#32 })

/-- R22: a byte, halfword or misaligned access that touches the window is refused; the refusal is the model's form
(log 8). That a window with a base above 2^32-64 does not wrap is the model's choice (log 17). -/
def Obligations.NarrowOrMisalignedWindowAccessIsRefused : Prop :=
  ∀ (s : State) (a : HostAccess) (addr : Word) (size : AccessSize) (rest : List HostAccess),
    s.pending = a :: rest → (a = .read addr size ∨ ∃ v, a = .write addr size v) →
    s.platform.aesBase.toNat < addr.toNat + size.bytes → addr.toNat < s.platform.aesBase.toNat + 64 →
    (size ≠ .word ∨ addr.toNat < s.platform.aesBase.toNat ∨ ¬ 4 ∣ addr.toNat - s.platform.aesBase.toNat) →
    step s = .refused .windowAccessNotAlignedWord

/-- R20, R60: a host agent's byte write to caller memory is seen by every later read, by the host or by a command, and
changes no other byte and nothing of the block. That host accesses to caller memory are bytes is the model's choice
(log 7), and so is that a window with a base above 2^32-64 does not wrap, so that low addresses are caller memory then
too (log 17). -/
def Obligations.HostByteWriteIsSeen : Prop :=
  ∀ (s : State) (addr v : Word) (rest : List HostAccess), s.mem.wf →
    (addr.toNat < s.platform.aesBase.toNat ∨ s.platform.aesBase.toNat + 64 ≤ addr.toNat) →
    s.pending = .write addr .byte v :: .read addr .byte :: rest →
    ∃ t u : State, step s = .next t ∧ step t = .next u ∧
      t.mem.byteAt addr.toNat = v.setWidth 8 ∧
      (∀ x, x ≠ addr.toNat → t.mem.byteAt x = s.mem.byteAt x) ∧
      t.orch = s.orch ∧ u.readData.toNat = v.toNat % 256 ∧ u = { t with readData := u.readData, pending := rest }

/-! ### Lock and key -/

/-- R101: `ACQUIRE` on a free engine grants the next token, 1, 2, ..., 255, 1, ..., never 0, whatever its own TOKEN
field; while a token is outstanding, the owner's own too, it fails with `EngineBusy` (3). -/
def Obligations.AcquireGrantsTheNextToken : Prop :=
  ∀ (tok : Nat) (s : State) (n : BitVec 8), n = (if s.orch.gen = 255#8 then 1#8 else s.orch.gen + 1#8) →
    n ≠ 0#8 ∧
    (s.orch.locked = false → exec (.acquire tok) s =
      .next { s with orch := { s.orch with gen := n, owner := n, locked := true, fail := false, err := 0#4 } }) ∧
    (s.orch.locked = true → exec (.acquire tok) s = .next (failedWith 3#4 s))

/-- R102: `RELEASE` with the outstanding token frees the lock and destroys the context; `GEN`, the descriptor registers
and caller memory are kept, and `STATUS` then reads 0. A second `RELEASE` fails with `NotOwner` (6), a wrong token with
`EngineBusy` (3). -/
def Obligations.ReleaseFreesTheEngine : Prop :=
  ∀ (tok : Nat) (s : State),
    (s.orch.locked = true → tok = s.orch.owner.toNat → ∃ t, exec (.release tok) s = .next t ∧
      t = { s with orch := { s.orch with
        locked := false, owner := 0#8, ctx := ⟨false, .k128, List.replicate 16 0#8⟩, macReady := false,
        fail := false, err := 0#4 } } ∧
      t.orch.status = 0#32 ∧ exec (.release tok) t = .next (failedWith 6#4 t)) ∧
    (s.orch.locked = false → exec (.release tok) s = .next (failedWith 6#4 s)) ∧
    (s.orch.locked = true → tok ≠ s.orch.owner.toNat → exec (.release tok) s = .next (failedWith 3#4 s))

/-- R103: `KEY_INIT` copies the key bytes into a valid context of the class `KEY_BITS` names and puts the MacEngine in
AwaitingKey; nothing else changes. Its checks fail in R79's order. -/
def Obligations.KeyInitLoadsTheKey : Prop :=
  ∀ (tok : Nat) (s : State),
    (Clear (.keyInit tok) s → ∃ t, exec (.keyInit tok) s = .next t ∧
      t.orch = { s.orch with ctx := t.orch.ctx, macReady := false, fail := false, err := 0#4 } ∧
      t.orch.ctx.valid = true ∧ 8 * keyBytes t.orch.ctx.cls = s.orch.desc.keyBits.toNat ∧
      t.orch.ctx.key.length = s.orch.desc.keyLen.toNat ∧ t.orch.ctx.key.length = keyBytes t.orch.ctx.cls ∧
      (∀ j, j < s.orch.desc.keyLen.toNat →
        t.orch.ctx.key[j]? = some (s.mem.byteAt (s.orch.desc.keyAddr.toNat + j))) ∧
      t.mem = s.mem ∧ SameOutside s t) ∧
    ReportsFirstFailure (.keyInit tok) s

/-! ### Block modes -/

/-- R121: `ECB_ENC` writes `E_c` of every input block at `OUT_ADDR`, `LEN/16` of them, and nothing else. -/
def Obligations.EcbEncEncryptsEachBlock : Prop :=
  ∀ (tok : Nat) (s : State), s.mem.wf →
    (Clear (.ecbEnc tok) s → ∃ t, exec (.ecbEnc tok) s = .next t ∧
      t.orch = succeeded s.orch ∧ SameOutside s t ∧
      (∀ j, j < s.orch.desc.len.toNat / 16 → t.mem.readBlock (s.orch.desc.outBase + 16 * j) =
        encryptBlock s.orch.ctx (s.mem.readBlock (s.orch.desc.inBase + 16 * j))) ∧
      SameMemoryBut s.orch.desc.outBase s.orch.desc.len.toNat s t) ∧
    ReportsFirstFailure (.ecbEnc tok) s

/-- R122: `ECB_DEC` writes `D_c` of every input block at `OUT_ADDR`, and nothing else. -/
def Obligations.EcbDecDecryptsEachBlock : Prop :=
  ∀ (tok : Nat) (s : State), s.mem.wf →
    (Clear (.ecbDec tok) s → ∃ t, exec (.ecbDec tok) s = .next t ∧
      t.orch = succeeded s.orch ∧ SameOutside s t ∧
      (∀ j, j < s.orch.desc.len.toNat / 16 → t.mem.readBlock (s.orch.desc.outBase + 16 * j) =
        decryptBlock s.orch.ctx (s.mem.readBlock (s.orch.desc.inBase + 16 * j))) ∧
      SameMemoryBut s.orch.desc.outBase s.orch.desc.len.toNat s t) ∧
    ReportsFirstFailure (.ecbDec tok) s

/-- R123: output block `j` of `CBC_ENC` is `E_c` of input block `j` xor the output block before it, the IV before the
first; the IV buffer is not written (R126) and nothing else is. -/
def Obligations.CbcEncChainsCiphertext : Prop :=
  ∀ (tok : Nat) (s : State), s.mem.wf →
    (Clear (.cbcEnc tok) s → ∃ t, exec (.cbcEnc tok) s = .next t ∧
      t.orch = succeeded s.orch ∧ SameOutside s t ∧
      (∀ j, j < s.orch.desc.len.toNat / 16 → t.mem.readBlock (s.orch.desc.outBase + 16 * j) =
        encryptBlock s.orch.ctx ((s.mem.readBlock (s.orch.desc.inBase + 16 * j)).xor
          (if j = 0 then s.mem.readBlock s.orch.desc.ivBase
            else t.mem.readBlock (s.orch.desc.outBase + 16 * (j - 1))))) ∧
      SameMemoryBut s.orch.desc.outBase s.orch.desc.len.toNat s t) ∧
    ReportsFirstFailure (.cbcEnc tok) s

/-- R124: output block `j` of `CBC_DEC` is `D_c` of input block `j`, xor the INPUT block before it, the IV before the
first; nothing else is written. -/
def Obligations.CbcDecChainsCiphertext : Prop :=
  ∀ (tok : Nat) (s : State), s.mem.wf →
    (Clear (.cbcDec tok) s → ∃ t, exec (.cbcDec tok) s = .next t ∧
      t.orch = succeeded s.orch ∧ SameOutside s t ∧
      (∀ j, j < s.orch.desc.len.toNat / 16 → t.mem.readBlock (s.orch.desc.outBase + 16 * j) =
        (decryptBlock s.orch.ctx (s.mem.readBlock (s.orch.desc.inBase + 16 * j))).xor
          (if j = 0 then s.mem.readBlock s.orch.desc.ivBase
            else s.mem.readBlock (s.orch.desc.inBase + 16 * (j - 1)))) ∧
      SameMemoryBut s.orch.desc.outBase s.orch.desc.len.toNat s t) ∧
    ReportsFirstFailure (.cbcDec tok) s

/-- R122: `ECB_DEC` of what `ECB_ENC` wrote, under the same context, returns the plaintext. Between the two the host may
move buffers and write descriptor registers as it likes. -/
def Obligations.EcbRoundTrip : Prop :=
  ∀ (tok tok' : Nat) (s t u v : State), s.mem.wf → u.mem.wf →
    exec (.ecbEnc tok) s = .next t → t.orch.fail = false →
    u.orch.ctx = t.orch.ctx → u.orch.desc.len = s.orch.desc.len →
    u.mem.readBytes u.orch.desc.inBase s.orch.desc.len.toNat =
      t.mem.readBytes s.orch.desc.outBase s.orch.desc.len.toNat →
    exec (.ecbDec tok') u = .next v → v.orch.fail = false →
    v.mem.readBytes u.orch.desc.outBase s.orch.desc.len.toNat =
      s.mem.readBytes s.orch.desc.inBase s.orch.desc.len.toNat

/-- R127: `CBC_DEC` of the output of `CBC_ENC`, under the same context and the same IV, returns the plaintext, for every
key, every IV and every length the command takes. -/
def Obligations.CbcRoundTrip : Prop :=
  ∀ (tok tok' : Nat) (s t u v : State), s.mem.wf → u.mem.wf →
    exec (.cbcEnc tok) s = .next t → t.orch.fail = false →
    u.orch.ctx = t.orch.ctx → u.orch.desc.len = s.orch.desc.len →
    u.mem.readBytes u.orch.desc.inBase s.orch.desc.len.toNat =
      t.mem.readBytes s.orch.desc.outBase s.orch.desc.len.toNat →
    u.mem.readBlock u.orch.desc.ivBase = s.mem.readBlock s.orch.desc.ivBase →
    exec (.cbcDec tok') u = .next v → v.orch.fail = false →
    v.mem.readBytes u.orch.desc.outBase s.orch.desc.len.toNat =
      s.mem.readBytes s.orch.desc.inBase s.orch.desc.len.toNat

/-! ### Counter mode -/

/-- R141 to R144, R146, R148: a CTR command, either direction, with INIT or from a stored record, writes the input xor
the keystream at `OUT_ADDR` and rewrites the record: the counter has moved once per keystream block generated, modulo
2^128, the cache holds the block in use, the offset is the bytes of it consumed. It uses `E_c` in both directions, and
nothing else is written. -/
def Obligations.CtrCommandAppliesTheKeystream : Prop :=
  ∀ (init : Bool) (tok : Nat) (s : State) (i : Instr) (st : CtrStream), s.mem.wf →
    (i = .ctrEnc init tok ∨ i = .ctrDec init tok) →
    st = (if init then ⟨s.mem.readBlock s.orch.desc.ivBase, Block.zero, 0⟩
      else ⟨s.mem.readBlock s.orch.desc.streamBase, s.mem.readBlock (s.orch.desc.streamBase + 16),
        (s.mem.byteAt (s.orch.desc.streamBase + 32)).toNat⟩) →
    (Clear i s → ∃ t, exec i s = .next t ∧ t.orch = succeeded s.orch ∧ SameOutside s t ∧
      (∀ j, j < s.orch.desc.len.toNat → t.mem.byteAt (s.orch.desc.outBase + j) =
        s.mem.byteAt (s.orch.desc.inBase + j) ^^^ keystreamByte (encryptBlock s.orch.ctx) st j) ∧
      t.mem.readBlock s.orch.desc.streamBase =
        (streamAfter (encryptBlock s.orch.ctx) st s.orch.desc.len.toNat).counter ∧
      t.mem.readBlock (s.orch.desc.streamBase + 16) =
        (streamAfter (encryptBlock s.orch.ctx) st s.orch.desc.len.toNat).cache ∧
      (t.mem.byteAt (s.orch.desc.streamBase + 32)).toNat = (st.offset + s.orch.desc.len.toNat) % 16 ∧
      (∀ x, ¬ (s.orch.desc.outBase ≤ x ∧ x < s.orch.desc.outBase + s.orch.desc.len.toNat) →
        ¬ (s.orch.desc.streamBase ≤ x ∧ x < s.orch.desc.streamBase + 33) → t.mem.byteAt x = s.mem.byteAt x)) ∧
    ReportsFirstFailure i s

/-- R146: the increment reads the whole 16-byte block as one big-endian number and wraps modulo 2^128; a block of all
0xFF is followed by a block of all zero. -/
def Obligations.CounterWrapsModulo128Bits : Prop :=
  (∀ b : Block, b.increment.be = (b.be + 1) % 2 ^ 128 ∧
    b.be = ((List.range 16).map fun i => (b.bytes.getD i 0#8).toNat * 256 ^ (15 - i)).sum) ∧
  (∀ b : Block, b.bytes = List.replicate 16 0xFF#8 → b.increment = Block.zero)

/-- R147: without INIT, a stored offset above 15 raises `InvalidStreamState` (10) with no other effect; any other stored
record is accepted as it stands. The premise is that no other check of R79 fails. -/
def Obligations.StoredOffsetAboveFifteenIsRefused : Prop :=
  ∀ (tok : Nat) (s : State) (i : Instr), (i = .ctrEnc false tok ∨ i = .ctrDec false tok) →
    (∀ c : Check, c ≠ .badOffset → ¬ c.fails i s) →
    (15 < (s.mem.byteAt (s.orch.desc.streamBase + 32)).toNat → exec i s = .next (failedWith 10#4 s)) ∧
    ((s.mem.byteAt (s.orch.desc.streamBase + 32)).toNat ≤ 15 →
      ∃ t, exec i s = .next t ∧ t.orch = succeeded s.orch)

/-- R145: the output and the final record of a stream started by INIT depend on the context, the IV and the bytes fed
alone, and not on how the bytes are cut into commands (so they are those of one command over all of them); and the
output, fed to a stream started by INIT from the same IV under the same context and cut in any other way, gives the
bytes back. -/
def Obligations.CtrChunkingIsInvariant : Prop :=
  ∀ (p o q : List Byte) (s t s' t' : State), s.mem.wf → s'.mem.wf → s'.orch.ctx = s.orch.ctx →
    s'.mem.readBlock s'.orch.desc.ivBase = s.mem.readBlock s.orch.desc.ivBase → CtrStreamed true p o s t →
    (CtrStreamed true p q s' t' → q = o ∧ t'.record = t.record) ∧
    (CtrStreamed true o q s' t' → q = p)

/-- R148: a stream started by INIT from an IV whose number is `v`, with `n` bytes in total passed through it in any
chunking, has the closed form: output byte `j` is input byte `j` xor byte `j mod 16` of `E_c` of `v + j/16`; the
record's counter is `v + ceil(n/16)`, its offset `n mod 16`, its cache the last block generated (zero when `n = 0`). -/
def Obligations.ChunkedStreamHasTheClosedForm : Prop :=
  ∀ (n v : Nat) (p o : List Byte) (s t : State), s.mem.wf → n = p.length →
    v = (s.mem.readBlock s.orch.desc.ivBase).be → CtrStreamed true p o s t →
    o.length = n ∧
    (∀ j, j < n → o.getD j 0#8 = p.getD j 0#8 ^^^
      (encryptBlock s.orch.ctx (Block.unbe ((v + j / 16) % 2 ^ 128))).bytes.getD (j % 16) 0#8) ∧
    t.mem.readBlock t.orch.desc.streamBase = Block.unbe ((v + (n + 15) / 16) % 2 ^ 128) ∧
    t.mem.readBlock (t.orch.desc.streamBase + 16) = (if n = 0 then Block.zero
      else encryptBlock s.orch.ctx (Block.unbe ((v + ((n + 15) / 16 - 1)) % 2 ^ 128))) ∧
    (t.mem.byteAt (t.orch.desc.streamBase + 32)).toNat = n % 16

/-! ### The MAC -/

/-- R161: `MAC_LOAD_KEY` writes `E_c` of the input block at `OUT_ADDR`, puts the MacEngine in Ready, and changes nothing
else. -/
def Obligations.MacLoadKeyEncryptsOneBlock : Prop :=
  ∀ (tok : Nat) (s : State), s.mem.wf →
    (Clear (.macLoadKey tok) s → ∃ t, exec (.macLoadKey tok) s = .next t ∧
      t.orch = { s.orch with macReady := true, fail := false, err := 0#4 } ∧ SameOutside s t ∧
      t.mem.readBlock s.orch.desc.outBase = encryptBlock s.orch.ctx (s.mem.readBlock s.orch.desc.inBase) ∧
      SameMemoryBut s.orch.desc.outBase 16 s t) ∧
    ReportsFirstFailure (.macLoadKey tok) s

/-- R162, R163: `MAC_TAG` writes the tag, the last CBC chaining value of the data from the seed, at `OUT_ADDR`; over the
data blocks but the last it writes their CBC ciphertexts, except where the tag, written last, overlaps them; and it
writes nothing else. -/
def Obligations.MacTagWritesScratchThenTag : Prop :=
  ∀ (f : Bool) (tok n : Nat) (s : State) (chain : Nat → Block), s.mem.wf → n = s.orch.desc.len.toNat / 16 →
    chain = cbcChain (encryptBlock s.orch.ctx)
      (if f then s.mem.readBlock s.orch.desc.ivBase else Block.zero)
      (fun j => s.mem.readBlock (s.orch.desc.inBase + 16 * j)) →
    (Clear (.macTag f tok) s → ∃ t, exec (.macTag f tok) s = .next t ∧
      t.orch = succeeded s.orch ∧ SameOutside s t ∧
      t.mem.readBlock s.orch.desc.outBase = chain (n - 1) ∧
      (∀ j k, j < n - 1 → k < 16 →
        ¬ (s.orch.desc.outBase ≤ s.orch.desc.inBase + 16 * j + k ∧
          s.orch.desc.inBase + 16 * j + k < s.orch.desc.outBase + 16) →
        t.mem.byteAt (s.orch.desc.inBase + 16 * j + k) = (chain j).bytes.getD k 0#8) ∧
      (∀ x, ¬ (s.orch.desc.outBase ≤ x ∧ x < s.orch.desc.outBase + 16) →
        ¬ (s.orch.desc.inBase ≤ x ∧ x < s.orch.desc.inBase + 16 * (n - 1)) → t.mem.byteAt x = s.mem.byteAt x)) ∧
    ReportsFirstFailure (.macTag f tok) s

/-- R164: the tag of `MAC_TAG` is the last output block of `CBC_ENC` on the same data, with the seed as IV, under the
same context; its scratch blocks are that command's first n-1 output blocks (where the tag does not overlap them). -/
def Obligations.MacTagIsTheLastCbcBlock : Prop :=
  ∀ (f : Bool) (tok tok' n : Nat) (s t u v : State), s.mem.wf → u.mem.wf → n = s.orch.desc.len.toNat / 16 →
    exec (.macTag f tok) s = .next t → t.orch.fail = false →
    exec (.cbcEnc tok') u = .next v → v.orch.fail = false →
    u.orch.ctx = s.orch.ctx → u.orch.desc.len = s.orch.desc.len →
    (∀ j, j < n → u.mem.readBlock (u.orch.desc.inBase + 16 * j) = s.mem.readBlock (s.orch.desc.inBase + 16 * j)) →
    u.mem.readBlock u.orch.desc.ivBase = (if f then s.mem.readBlock s.orch.desc.ivBase else Block.zero) →
    t.mem.readBlock s.orch.desc.outBase = v.mem.readBlock (u.orch.desc.outBase + 16 * (n - 1)) ∧
    (∀ j, j < n - 1 →
      (s.orch.desc.outBase + 16 ≤ s.orch.desc.inBase + 16 * j ∨
        s.orch.desc.inBase + 16 * j + 16 ≤ s.orch.desc.outBase) →
      t.mem.readBlock (s.orch.desc.inBase + 16 * j) = v.mem.readBlock (u.orch.desc.outBase + 16 * j))

/-- R166: the tag is a function of context, seed and data, and a change confined to one block of the data, whichever and
however small, changes the tag. -/
def Obligations.MacTagSeesEveryBlock : Prop :=
  ∀ (f : Bool) (tok n k : Nat) (s t u v : State), s.mem.wf → u.mem.wf → n = s.orch.desc.len.toNat / 16 → k < n →
    exec (.macTag f tok) s = .next t → t.orch.fail = false →
    exec (.macTag f tok) u = .next v → v.orch.fail = false →
    u.orch.ctx = s.orch.ctx → u.orch.desc.len = s.orch.desc.len →
    (f = true → u.mem.readBlock u.orch.desc.ivBase = s.mem.readBlock s.orch.desc.ivBase) →
    (∀ j, j < n → j ≠ k →
      u.mem.readBlock (u.orch.desc.inBase + 16 * j) = s.mem.readBlock (s.orch.desc.inBase + 16 * j)) →
    (v.mem.readBlock u.orch.desc.outBase = t.mem.readBlock s.orch.desc.outBase ↔
      u.mem.readBlock (u.orch.desc.inBase + 16 * k) = s.mem.readBlock (s.orch.desc.inBase + 16 * k))
end

