-- ==== Sys2Proof/Laws/State.lean ====
section
/-! SUPPORT. One lemma per field per update of the state, each true by rfl. -/

namespace Sys2Proof.Machine

variable (s : State)

/-! ### `raise` (R81) -/

@[simp] theorem raise_mem (e : Err) : (s.raise e).mem = s.mem := rfl

@[simp] theorem raise_platform (e : Err) : (s.raise e).platform = s.platform := rfl

@[simp] theorem raise_pending (e : Err) : (s.raise e).pending = s.pending := rfl

@[simp] theorem raise_readData (e : Err) : (s.raise e).readData = s.readData := rfl

@[simp] theorem raise_wakeCount (e : Err) : (s.raise e).wakeCount = s.wakeCount := rfl

@[simp] theorem raise_desc (e : Err) : (s.raise e).orch.desc = s.orch.desc := rfl

@[simp] theorem raise_locked (e : Err) : (s.raise e).orch.locked = s.orch.locked := rfl

@[simp] theorem raise_owner (e : Err) : (s.raise e).orch.owner = s.orch.owner := rfl

@[simp] theorem raise_gen (e : Err) : (s.raise e).orch.gen = s.orch.gen := rfl

@[simp] theorem raise_ctx (e : Err) : (s.raise e).orch.ctx = s.orch.ctx := rfl

@[simp] theorem raise_macReady (e : Err) : (s.raise e).orch.macReady = s.orch.macReady := rfl

@[simp] theorem raise_fail (e : Err) : (s.raise e).orch.fail = true := rfl

@[simp] theorem raise_err (e : Err) : (s.raise e).orch.err = e.code := rfl

/-! ### `complete` (R80) -/

@[simp] theorem complete_mem (ws : List (Nat × List Byte)) (o : Orch) : (s.complete ws o).mem = s.mem.commit ws := rfl

@[simp] theorem complete_platform (ws : List (Nat × List Byte)) (o : Orch) : (s.complete ws o).platform = s.platform := rfl

@[simp] theorem complete_pending (ws : List (Nat × List Byte)) (o : Orch) : (s.complete ws o).pending = s.pending := rfl

@[simp] theorem complete_readData (ws : List (Nat × List Byte)) (o : Orch) : (s.complete ws o).readData = s.readData := rfl

@[simp] theorem complete_wakeCount (ws : List (Nat × List Byte)) (o : Orch) : (s.complete ws o).wakeCount = s.wakeCount := rfl

@[simp] theorem complete_desc (ws : List (Nat × List Byte)) (o : Orch) : (s.complete ws o).orch.desc = o.desc := rfl

@[simp] theorem complete_locked (ws : List (Nat × List Byte)) (o : Orch) : (s.complete ws o).orch.locked = o.locked := rfl

@[simp] theorem complete_owner (ws : List (Nat × List Byte)) (o : Orch) : (s.complete ws o).orch.owner = o.owner := rfl

@[simp] theorem complete_gen (ws : List (Nat × List Byte)) (o : Orch) : (s.complete ws o).orch.gen = o.gen := rfl

@[simp] theorem complete_ctx (ws : List (Nat × List Byte)) (o : Orch) : (s.complete ws o).orch.ctx = o.ctx := rfl

@[simp] theorem complete_macReady (ws : List (Nat × List Byte)) (o : Orch) : (s.complete ws o).orch.macReady = o.macReady := rfl

@[simp] theorem complete_fail (ws : List (Nat × List Byte)) (o : Orch) : (s.complete ws o).orch.fail = false := rfl

@[simp] theorem complete_err (ws : List (Nat × List Byte)) (o : Orch) : (s.complete ws o).orch.err = 0#4 := rfl

/-! ### Descriptor writes, answers, reset, the end of a low-power mode -/

@[simp] theorem setDesc_mem (r : DescReg) (v : Word) : (s.setDesc r v).mem = s.mem := rfl

@[simp] theorem setDesc_platform (r : DescReg) (v : Word) : (s.setDesc r v).platform = s.platform := rfl

@[simp] theorem setDesc_pending (r : DescReg) (v : Word) : (s.setDesc r v).pending = s.pending := rfl

@[simp] theorem setDesc_readData (r : DescReg) (v : Word) : (s.setDesc r v).readData = s.readData := rfl

@[simp] theorem setDesc_wakeCount (r : DescReg) (v : Word) : (s.setDesc r v).wakeCount = s.wakeCount := rfl

@[simp] theorem setDesc_locked (r : DescReg) (v : Word) : (s.setDesc r v).orch.locked = s.orch.locked := rfl

@[simp] theorem setDesc_owner (r : DescReg) (v : Word) : (s.setDesc r v).orch.owner = s.orch.owner := rfl

@[simp] theorem setDesc_gen (r : DescReg) (v : Word) : (s.setDesc r v).orch.gen = s.orch.gen := rfl

@[simp] theorem setDesc_ctx (r : DescReg) (v : Word) : (s.setDesc r v).orch.ctx = s.orch.ctx := rfl

@[simp] theorem setDesc_macReady (r : DescReg) (v : Word) : (s.setDesc r v).orch.macReady = s.orch.macReady := rfl

@[simp] theorem setDesc_fail (r : DescReg) (v : Word) : (s.setDesc r v).orch.fail = s.orch.fail := rfl

@[simp] theorem setDesc_err (r : DescReg) (v : Word) : (s.setDesc r v).orch.err = s.orch.err := rfl

@[simp] theorem setDesc_desc (r : DescReg) (v : Word) : (s.setDesc r v).orch.desc = s.orch.desc.set r v := rfl

@[simp] theorem answer_orch (v : Word) : (s.answer v).orch = s.orch := rfl

@[simp] theorem answer_mem (v : Word) : (s.answer v).mem = s.mem := rfl

@[simp] theorem answer_platform (v : Word) : (s.answer v).platform = s.platform := rfl

@[simp] theorem answer_pending (v : Word) : (s.answer v).pending = s.pending := rfl

@[simp] theorem answer_wakeCount (v : Word) : (s.answer v).wakeCount = s.wakeCount := rfl

@[simp] theorem answer_readData (v : Word) : (s.answer v).readData = v := rfl

@[simp] theorem resetBlock_mem : s.resetBlock.mem = s.mem := rfl

@[simp] theorem resetBlock_platform : s.resetBlock.platform = s.platform := rfl

@[simp] theorem resetBlock_pending : s.resetBlock.pending = s.pending := rfl

@[simp] theorem resetBlock_readData : s.resetBlock.readData = s.readData := rfl

@[simp] theorem resetBlock_wakeCount : s.resetBlock.wakeCount = s.wakeCount := rfl

@[simp] theorem resetBlock_orch : s.resetBlock.orch = Orch.reset := rfl

@[simp] theorem lowPowerExit_mem : s.lowPowerExit.mem = s.mem := rfl

@[simp] theorem lowPowerExit_platform : s.lowPowerExit.platform = s.platform := rfl

@[simp] theorem lowPowerExit_pending : s.lowPowerExit.pending = s.pending := rfl

@[simp] theorem lowPowerExit_readData : s.lowPowerExit.readData = s.readData := rfl

@[simp] theorem lowPowerExit_orch : s.lowPowerExit.orch = Config.orchAfterLowPower s.wakeCount := rfl

@[simp] theorem lowPowerExit_wakeCount : s.lowPowerExit.wakeCount = s.wakeCount + 1 := rfl

/-- A descriptor register reads as last written (R25). -/
@[simp] theorem get_set_same (d : Descriptor) (r : DescReg) (v : Word) : (d.set r v).get r = v := by
  cases r <;> rfl

/-- A write of one descriptor register leaves the others (R25). -/
theorem get_set_other (d : Descriptor) {r q : DescReg} (v : Word) (h : q ≠ r) : (d.set r v).get q = d.get q := by
  cases r <;> cases q <;> first | rfl | exact absurd rfl h

end Sys2Proof.Machine
end

