-- ==== Sys2Proof/Laws/Memory.lean ====
section
/-! SUPPORT. Caller memory: a read after a write gives the value written, a write leaves every other byte alone, and
every operation keeps the canonical form and the address space. -/

namespace Sys2Proof.Machine

/-! ### One byte -/

/-- Below its first listed address a canonical memory reads as unlisted. -/
theorem byteAt_below {m : Memory} {a : Nat} (h : ∀ c ∈ m, a < c.1) : m.byteAt a = Memory.unlisted := by
  induction m with
  | nil => rfl
  | cons c rest ih =>
    obtain ⟨b, w⟩ := c
    have hb : a < b := h (b, w) (by simp)
    simp only [Memory.byteAt, if_neg (Nat.ne_of_lt hb)]
    exact ih fun c hc => h c (by simp [hc])

theorem wf_tail {c : Host.Cell} {m : Memory} (h : Memory.wf (c :: m)) : m.wf :=
  ⟨(List.pairwise_cons.1 h.1).2, fun x hx => h.2 x (by simp [hx])⟩

theorem wf_head_lt {c : Host.Cell} {m : Memory} (h : Memory.wf (c :: m)) : ∀ x ∈ m, c.1 < x.1 :=
  (List.pairwise_cons.1 h.1).1

/-- The one law of `setByte`: the written address reads the value, every other address reads as before. -/
theorem byteAt_setByte {m : Memory} (hw : m.wf) (a : Nat) (v : Byte) (x : Nat) :
    (m.setByte a v).byteAt x = if x = a then v else m.byteAt x := by
  induction m with
  | nil =>
    by_cases hv : v = Memory.unlisted <;> by_cases hx : x = a <;> simp [Memory.setByte, Memory.byteAt, hv, hx]
  | cons c rest ih =>
    obtain ⟨b, w⟩ := c
    have ihr := ih (wf_tail hw)
    have hlt := wf_head_lt hw
    unfold Memory.setByte
    rcases Nat.lt_trichotomy a b with h | h | h
    · by_cases hv : v = Memory.unlisted
      · by_cases hx : x = a
        · subst hx
          have : Memory.byteAt ((b, w) :: rest) x = Memory.unlisted :=
            byteAt_below fun c hc => by
              rcases List.mem_cons.1 hc with rfl | hc
              · exact h
              · exact Nat.lt_trans h (hlt c hc)
          simp [h, hv, this]
        · simp [h, hv, hx]
      · by_cases hx : x = a <;> simp [h, hv, hx, Memory.byteAt]
    · subst h
      by_cases hv : v = Memory.unlisted
      · by_cases hx : x = a
        · subst hx
          have : Memory.byteAt rest x = Memory.unlisted := byteAt_below hlt
          simp [hv, this]
        · simp [hv, hx, Memory.byteAt]
      · by_cases hx : x = a <;> simp [hv, hx, Memory.byteAt]
    · have h1 : ¬ a < b := by omega
      have h2 : ¬ a = b := by omega
      simp only [if_neg h1, if_neg h2, Memory.byteAt, ihr]
      by_cases hx : x = b
      · have : ¬ x = a := by omega
        simp [hx, show ¬ b = a by omega]
      · simp [hx]

/-- Whatever `setByte` lists was listed before or is the byte written. -/
theorem mem_setByte {m : Memory} {a : Nat} {v : Byte} {c : Host.Cell} (h : c ∈ m.setByte a v) :
    c ∈ m ∨ (c = (a, v) ∧ v ≠ Memory.unlisted) := by
  induction m with
  | nil =>
    unfold Memory.setByte at h
    split at h <;> simp_all
  | cons d rest ih =>
    obtain ⟨b, w⟩ := d
    unfold Memory.setByte at h
    split at h
    · split at h
      · exact .inl h
      · rcases List.mem_cons.1 h with h | h
        · exact .inr ⟨h, ‹_›⟩
        · exact .inl h
    · split at h
      · split at h
        · exact .inl (by simp [h])
        · rcases List.mem_cons.1 h with h | h
          · exact .inr ⟨h, ‹_›⟩
          · exact .inl (by simp [h])
      · rcases List.mem_cons.1 h with h | h
        · exact .inl (by simp [h])
        · rcases ih h with h | h
          · exact .inl (by simp [h])
          · exact .inr h

theorem wf_setByte {m : Memory} (hw : m.wf) (a : Nat) (v : Byte) : (m.setByte a v).wf := by
  refine ⟨?_, fun c hc => ?_⟩
  · induction m with
    | nil => unfold Memory.setByte; split <;> simp
    | cons d rest ih =>
      obtain ⟨b, w⟩ := d
      have hlt := wf_head_lt hw
      have hp := (List.pairwise_cons.1 hw.1).2
      unfold Memory.setByte
      split
      · split
        · exact hw.1
        · refine List.pairwise_cons.2 ⟨fun c hc => ?_, hw.1⟩
          rcases List.mem_cons.1 hc with rfl | hc
          · assumption
          · exact Nat.lt_trans ‹_› (hlt c hc)
      · split
        · split
          · exact hp
          · refine List.pairwise_cons.2 ⟨fun c hc => ?_, hp⟩
            have := hlt c hc
            omega
        · refine List.pairwise_cons.2 ⟨fun c hc => ?_, ih (wf_tail hw)⟩
          rcases mem_setByte hc with hc | ⟨rfl, -⟩
          · exact hlt c hc
          · show b < a; omega
  · rcases mem_setByte hc with hc | ⟨rfl, hv⟩
    · exact hw.2 c hc
    · exact hv

/-! ### Byte strings -/

@[simp] theorem length_readBytes (m : Memory) (a n : Nat) : (m.readBytes a n).length = n := by
  simp [Memory.readBytes]

@[simp] theorem getElem_readBytes (m : Memory) (a n i : Nat) (h : i < (m.readBytes a n).length) :
    (m.readBytes a n)[i] = m.byteAt (a + i) := by
  simp [Memory.readBytes]

/-- Two reads agree when the bytes do. -/
theorem readBytes_congr {m m' : Memory} {a n : Nat} (h : ∀ i, i < n → m'.byteAt (a + i) = m.byteAt (a + i)) :
    m'.readBytes a n = m.readBytes a n := by
  simp only [Memory.readBytes]
  exact List.map_congr_left fun i hi => h i (List.mem_range.1 hi)

theorem readBytes_add (m : Memory) (a n k : Nat) :
    m.readBytes a (n + k) = m.readBytes a n ++ m.readBytes (a + n) k := by
  simp [Memory.readBytes, List.range_add, Nat.add_assoc, Function.comp_def]

theorem wf_writeBytes {m : Memory} (hw : m.wf) (a : Nat) (v : List Byte) : (m.writeBytes a v).wf := by
  induction v generalizing m a with
  | nil => exact hw
  | cons b bs ih => exact ih (wf_setByte hw a b) (a + 1)

theorem mem_writeBytes {m : Memory} {a : Nat} {v : List Byte} {c : Host.Cell} (h : c ∈ m.writeBytes a v) :
    c ∈ m ∨ (a ≤ c.1 ∧ c.1 < a + v.length) := by
  induction v generalizing m a with
  | nil => exact .inl h
  | cons b bs ih =>
    rcases ih h with h | h
    · rcases mem_setByte h with h | ⟨rfl, -⟩
      · exact .inl h
      · exact .inr (by simp)
    · exact .inr (by simp only [List.length_cons]; omega)

/-- The one law of `writeBytes`: inside, the bytes written; outside, the bytes of before. -/
theorem byteAt_writeBytes {m : Memory} (hw : m.wf) (a : Nat) (v : List Byte) (x : Nat) :
    (m.writeBytes a v).byteAt x = if h : a ≤ x ∧ x - a < v.length then v[x - a] else m.byteAt x := by
  induction v generalizing m a with
  | nil => simp [Memory.writeBytes]
  | cons b bs ih =>
    simp only [Memory.writeBytes]
    rw [ih (wf_setByte hw a b) (a + 1), byteAt_setByte hw]
    by_cases h1 : a + 1 ≤ x ∧ x - (a + 1) < bs.length
    · have h2 : a ≤ x ∧ x - a < (b :: bs).length := ⟨by omega, by simp only [List.length_cons]; omega⟩
      rw [dif_pos h1, dif_pos h2]
      have : x - a = (x - (a + 1)) + 1 := by omega
      simp [this]
    · rw [dif_neg h1]
      by_cases hx : x = a
      · subst hx
        simp
      · have h2 : ¬ (a ≤ x ∧ x - a < (b :: bs).length) := by
          simp only [List.length_cons]; omega
        rw [dif_neg h2, if_neg hx]

theorem byteAt_writeBytes_outside {m : Memory} (hw : m.wf) {a : Nat} {v : List Byte} {x : Nat}
    (h : ¬ (a ≤ x ∧ x < a + v.length)) : (m.writeBytes a v).byteAt x = m.byteAt x := by
  rw [byteAt_writeBytes hw, dif_neg (by omega)]

theorem byteAt_writeBytes_inside {m : Memory} (hw : m.wf) (a : Nat) (v : List Byte) (i : Nat) (h : i < v.length) :
    (m.writeBytes a v).byteAt (a + i) = v[i] := by
  rw [byteAt_writeBytes hw, dif_pos (by omega)]
  simp

/-- A read of exactly what was written gives it. -/
theorem readBytes_writeBytes {m : Memory} (hw : m.wf) (a : Nat) (v : List Byte) :
    (m.writeBytes a v).readBytes a v.length = v := by
  apply List.ext_getElem (by simp)
  intro i h1 h2
  rw [getElem_readBytes, byteAt_writeBytes_inside hw a v i h2]

/-! ### Blocks -/

theorem block_ext {a b : Block} (h : a.bytes = b.bytes) : a = b := by
  cases a; cases b; cases h; rfl

@[simp] theorem length_readBlocks (m : Memory) (a n : Nat) : (m.readBlocks a n).length = n := by
  simp [Memory.readBlocks]

@[simp] theorem getElem_readBlocks (m : Memory) (a n i : Nat) (h : i < (m.readBlocks a n).length) :
    (m.readBlocks a n)[i] = m.readBlock (a + 16 * i) := by
  simp [Memory.readBlocks]

theorem readBlock_congr {m m' : Memory} {a : Nat} (h : ∀ i, i < 16 → m'.byteAt (a + i) = m.byteAt (a + i)) :
    m'.readBlock a = m.readBlock a :=
  block_ext (readBytes_congr h)

/-- A block reads as `b` when its sixteen bytes do. -/
theorem readBlock_eq {m : Memory} {a : Nat} {b : Block}
    (h : ∀ i (hi : i < 16), m.byteAt (a + i) = b.bytes[i]'(by rw [b.size_eq]; exact hi)) : m.readBlock a = b := by
  apply block_ext
  apply List.ext_getElem
  · simp [Memory.readBlock, b.size_eq]
  · intro i h1 h2
    have : i < 16 := by rw [b.size_eq] at h2; exact h2
    simpa [Memory.readBlock] using h i this

@[simp] theorem length_concatBlocks (bs : List Block) : (concatBlocks bs).length = 16 * bs.length := by
  induction bs with
  | nil => rfl
  | cons b bs ih =>
    simp only [concatBlocks, List.flatMap_cons, List.length_append, b.size_eq, List.length_cons] at *
    omega

/-- Byte `16 i + j` of a concatenation is byte `j` of block `i`. -/
theorem getElem_concatBlocks (bs : List Block) (i j : Nat) (hi : i < bs.length) (hj : j < 16) :
    (concatBlocks bs)[16 * i + j]'(by simp; omega) = (bs[i]).bytes[j]'(by rw [(bs[i]).size_eq]; exact hj) := by
  induction bs generalizing i with
  | nil => simp at hi
  | cons b bs ih =>
    have hc : concatBlocks (b :: bs) = b.bytes ++ concatBlocks bs := by simp [concatBlocks]
    cases i with
    | zero =>
      simp only [hc, Nat.mul_zero, Nat.zero_add, List.getElem_cons_zero]
      rw [List.getElem_append_left]
    | succ k =>
      simp only [List.length_cons] at hi
      have hk : k < bs.length := by omega
      simp only [hc, List.getElem_cons_succ]
      rw [List.getElem_append_right (by rw [b.size_eq]; omega)]
      have := ih k hk
      rw [← this]
      congr 1
      rw [b.size_eq]; omega

/-- Block `i` of a buffer just written with `bs` is `bs[i]`. -/
theorem readBlock_writeBlocks {m : Memory} (hw : m.wf) (a : Nat) (bs : List Block) (i : Nat) (hi : i < bs.length) :
    (m.writeBytes a (concatBlocks bs)).readBlock (a + 16 * i) = bs[i] := by
  apply readBlock_eq
  intro j hj
  have hlen : 16 * i + j < (concatBlocks bs).length := by simp; omega
  rw [Nat.add_assoc, byteAt_writeBytes_inside hw a _ (16 * i + j) hlen, getElem_concatBlocks bs i j hi hj]

/-! ### The writes of a command -/

@[simp] theorem commit_nil (m : Memory) : m.commit [] = m := rfl

@[simp] theorem commit_one (m : Memory) (a : Nat) (v : List Byte) : m.commit [(a, v)] = m.writeBytes a v := rfl

@[simp] theorem commit_two (m : Memory) (a b : Nat) (v w : List Byte) :
    m.commit [(a, v), (b, w)] = (m.writeBytes a v).writeBytes b w := rfl

theorem wf_commit {m : Memory} (hw : m.wf) (ws : List (Nat × List Byte)) : (m.commit ws).wf := by
  induction ws generalizing m with
  | nil => exact hw
  | cons w ws ih => exact ih (wf_writeBytes hw w.1 w.2)

theorem mem_commit {m : Memory} {ws : List (Nat × List Byte)} {c : Host.Cell} (h : c ∈ m.commit ws) :
    c ∈ m ∨ ∃ w ∈ ws, w.1 ≤ c.1 ∧ c.1 < w.1 + w.2.length := by
  induction ws generalizing m with
  | nil => exact .inl h
  | cons w ws ih =>
    rcases ih (m := m.writeBytes w.1 w.2) h with h | ⟨x, hx, h⟩
    · rcases mem_writeBytes h with h | h
      · exact .inl h
      · exact .inr ⟨w, by simp, h⟩
    · exact .inr ⟨x, by simp [hx], h⟩

end Sys2Proof.Machine
end

