-- ==== Sys2Proof/Laws/Bytes.lean ====
section
/-! SUPPORT. Blocks: exclusive or is a group law of exponent two, `be` and `unbe` are inverse on 0 .. 2^128-1 (R10), and
`E_c`, `D_c` invert each other (R8). -/

namespace Sys2Proof

open Machine

/-! ### Exclusive or -/

@[simp] theorem length_xorBytes (a b : List Byte) : (xorBytes a b).length = min a.length b.length := by
  simp [xorBytes]

@[simp] theorem getElem_xorBytes (a b : List Byte) (i : Nat) (h : i < (xorBytes a b).length) :
    (xorBytes a b)[i] = a[i]'(by simp at h; omega) ^^^ b[i]'(by simp at h; omega) := by
  simp [xorBytes]

theorem xor_bytes (a b : Block) : (a.xor b).bytes = xorBytes a.bytes b.bytes := rfl

theorem block_xor_comm (a b : Block) : a.xor b = b.xor a := by
  apply block_ext
  apply List.ext_getElem
  · simp [xor_bytes, Nat.min_comm]
  · intro i h1 h2
    simp only [xor_bytes, getElem_xorBytes]
    exact BitVec.xor_comm _ _

theorem block_xor_assoc (a b c : Block) : (a.xor b).xor c = a.xor (b.xor c) := by
  apply block_ext
  apply List.ext_getElem
  · simp [xor_bytes, a.size_eq, b.size_eq, c.size_eq]
  · intro i h1 h2
    simp [xor_bytes, BitVec.xor_assoc]

/-- `x xor k xor k = x`. -/
@[simp] theorem block_xor_cancel (a b : Block) : (a.xor b).xor b = a := by
  apply block_ext
  apply List.ext_getElem
  · simp [xor_bytes, a.size_eq, b.size_eq]
  · intro i h1 h2
    simp [xor_bytes]

@[simp] theorem block_xor_zero (a : Block) : a.xor Block.zero = a := by
  apply block_ext
  apply List.ext_getElem
  · simp [xor_bytes, Block.zero, a.size_eq]
  · intro i h1 h2
    simp only [xor_bytes, getElem_xorBytes, Block.zero, List.getElem_replicate]
    exact BitVec.xor_zero

theorem xor_right_injective (a : Block) {x y : Block} (h : x.xor a = y.xor a) : x = y := by
  rw [← block_xor_cancel x a, h, block_xor_cancel]

/-! ### The big-endian number of a block -/

/-- The Horner sum from an accumulator. -/
theorem foldl_be (l : List Byte) (acc : Nat) :
    l.foldl (fun acc x => acc * 256 + x.toNat) acc =
      acc * 256 ^ l.length + l.foldl (fun acc x => acc * 256 + x.toNat) 0 := by
  induction l generalizing acc with
  | nil => simp
  | cons b bs ih =>
    simp only [List.foldl_cons, List.length_cons]
    rw [ih, ih (0 * 256 + b.toNat)]
    ring

theorem be_list_lt (l : List Byte) : l.foldl (fun acc x => acc * 256 + x.toNat) 0 < 256 ^ l.length := by
  induction l with
  | nil => simp
  | cons b bs ih =>
    simp only [List.foldl_cons, List.length_cons]
    rw [foldl_be]
    have hb : b.toNat < 256 := b.isLt
    have : 0 * 256 + b.toNat ≤ 255 := by omega
    have h2 : (0 * 256 + b.toNat) * 256 ^ bs.length ≤ 255 * 256 ^ bs.length := Nat.mul_le_mul_right _ this
    rw [pow_succ]
    omega

/-- R10's own form of `be`: byte `i` weighs `256^(n-1-i)`. -/
theorem be_list_digit (l : List Byte) (i : Nat) (h : i < l.length) :
    l.foldl (fun acc x => acc * 256 + x.toNat) 0 / 256 ^ (l.length - 1 - i) % 256 = (l[i]).toNat := by
  induction l generalizing i with
  | nil => simp at h
  | cons b bs ih =>
    simp only [List.foldl_cons, List.length_cons]
    rw [foldl_be]
    have hlt := be_list_lt bs
    generalize bs.foldl (fun acc x => acc * 256 + x.toNat) 0 = v at *
    have hb : b.toNat < 256 := b.isLt
    cases i with
    | zero =>
      have hpos : 0 < 256 ^ bs.length := by positivity
      simp only [Nat.zero_mul, Nat.zero_add, List.getElem_cons_zero, Nat.add_sub_cancel, Nat.sub_zero]
      rw [Nat.mul_comm, Nat.mul_add_div hpos, Nat.div_eq_of_lt hlt]
      omega
    | succ k =>
      simp only [List.length_cons] at h
      have hk : k < bs.length := by omega
      have e1 : bs.length + 1 - 1 - (k + 1) = bs.length - 1 - k := by omega
      have e2 : bs.length = (bs.length - 1 - k) + (k + 1) := by omega
      rw [e1, List.getElem_cons_succ, ← ih k hk]
      generalize bs.length - 1 - k = p at *
      have hpos : 0 < 256 ^ p := by positivity
      rw [e2, pow_add, ← Nat.mul_assoc, Nat.mul_comm (_ * 256 ^ p), ← Nat.mul_assoc, Nat.mul_comm _ (256 ^ p),
        Nat.mul_add_div hpos, pow_succ, Nat.mul_comm (256 ^ k) 256, Nat.mul_assoc, Nat.mul_add_mod]

theorem be_lt (b : Block) : b.be < 2 ^ 128 := by
  have := be_list_lt b.bytes
  rw [b.size_eq] at this
  exact this

@[simp] theorem unbe_be (b : Block) : Block.unbe b.be = b := by
  apply block_ext
  apply List.ext_getElem
  · simp [Block.unbe, b.size_eq]
  · intro i h1 h2
    have hi : i < 16 := by rw [b.size_eq] at h2; exact h2
    have := be_list_digit b.bytes i h2
    rw [b.size_eq] at this
    apply BitVec.eq_of_toNat_eq
    simp only [Block.unbe, List.getElem_map, List.getElem_range, BitVec.toNat_ofNat]
    exact this

/-- Two lists of bytes of one length with one number are one list. -/
theorem be_injective {a b : Block} (h : a.be = b.be) : a = b := by
  rw [← unbe_be a, h, unbe_be]

theorem be_unbe (v : Nat) (hv : v < 2 ^ 128) : (Block.unbe v).be = v := by
  have key : ∀ n w, w < 256 ^ n →
      ((List.range n).map fun i => BitVec.ofNat 8 (w / 256 ^ (n - 1 - i))).foldl
        (fun acc (x : Byte) => acc * 256 + x.toNat) 0 = w := by
    intro n
    induction n with
    | zero => intro w hw; simp at hw; simp [hw]
    | succ n ih =>
      intro w hw
      rw [List.range_succ, List.map_append, List.foldl_append]
      have hstep : (List.range n).map (fun i => BitVec.ofNat 8 (w / 256 ^ (n + 1 - 1 - i)))
          = (List.range n).map (fun i => BitVec.ofNat 8 (w / 256 / 256 ^ (n - 1 - i))) := by
        apply List.map_congr_left
        intro i hi
        have hi := List.mem_range.1 hi
        have e : n + 1 - 1 - i = (n - 1 - i) + 1 := by omega
        rw [e, pow_succ, Nat.mul_comm, Nat.div_div_eq_div_mul]
      rw [hstep, ih (w / 256) (by rw [Nat.div_lt_iff_lt_mul (by norm_num)]; rw [pow_succ] at hw; omega)]
      simp only [List.map_cons, List.map_nil, List.foldl_cons, List.foldl_nil, Nat.add_sub_cancel, Nat.sub_self,
        pow_zero, Nat.div_one, BitVec.toNat_ofNat]
      omega
  exact key 16 v hv

/-! ### The cipher -/

@[simp] theorem decrypt_encrypt (c : AesContext) (b : Block) : decryptBlock c (encryptBlock c b) = b := by
  simp [decryptBlock, encryptBlock]

@[simp] theorem encrypt_decrypt (c : AesContext) (b : Block) : encryptBlock c (decryptBlock c b) = b := by
  simp [decryptBlock, encryptBlock]

theorem encryptBlock_injective (c : AesContext) {a b : Block} (h : encryptBlock c a = encryptBlock c b) : a = b := by
  rw [← decrypt_encrypt c a, h, decrypt_encrypt]

end Sys2Proof
end

