-- ==== Sys2Proof/Laws/Checks.lean ====
section
/-! SUPPORT. The checks of 30_encoding.md R79: the functions of Operands.lean decide the propositions of Safety.lean, and
every command is one `command` over its checks, writes and next block state. -/

namespace Sys2Proof.Machine

/-! ### Every command is one `command` -/

/-- The checks of a command, in order. -/
def checksOf (s : State) : Instr → List (Option Err)
  | .acquire _ => [checkFree s.orch]
  | .release t => ownerChecks t s.orch
  | .keyInit t => ownerChecks t s.orch ++ [checkKeyLength s.orch.desc]
      ++ regionChecks s.platform none (keyInitRegions s.orch.desc)
  | .ecbEnc t | .ecbDec t => blockModeChecks t s (ecbRegions s.orch.desc)
  | .cbcEnc t | .cbcDec t => blockModeChecks t s (cbcRegions s.orch.desc)
  | .ctrEnc f t | .ctrDec f t => ctrChecks f t s
  | .macTag f t => ownerChecks t s.orch ++ [checkKeyLoaded s.orch, checkMacReady s.orch, checkMacLength s.orch.desc]
      ++ regionChecks s.platform (some (.data, .tag)) (macTagRegions f s.orch.desc)
  | .macLoadKey t => ownerChecks t s.orch ++ [checkKeyLoaded s.orch, checkOneBlock s.orch.desc]
      ++ regionChecks s.platform none (macLoadKeyRegions s.orch.desc)

/-- The memory writes of a command that completes. -/
def writesOf (s : State) : Instr → List (Nat × List Byte)
  | .acquire _ | .release _ | .keyInit _ => []
  | .ecbEnc _ => outputWrite s ((inputBlocks s).map (encryptBlock s.orch.ctx))
  | .ecbDec _ => outputWrite s ((inputBlocks s).map (decryptBlock s.orch.ctx))
  | .cbcEnc _ => outputWrite s (cbcEncrypt (encryptBlock s.orch.ctx) (ivBlock s) (inputBlocks s))
  | .cbcDec _ => outputWrite s (cbcDecrypt (decryptBlock s.orch.ctx) (ivBlock s) (inputBlocks s))
  | .ctrEnc f _ | .ctrDec f _ => ctrWrites s (ctrResult f s)
  | .macTag f _ =>
    [(s.orch.desc.inBase, concatBlocks (macResult f s).1), (s.orch.desc.outBase, (macResult f s).2.bytes)]
  | .macLoadKey _ => [(s.orch.desc.outBase, (encryptBlock s.orch.ctx (s.mem.readBlock s.orch.desc.inBase)).bytes)]

/-- The block's state after a command that completes, but for `FAIL` and `ERR`. -/
def orchAfter (s : State) : Instr → Orch
  | .acquire _ => { s.orch with gen := nextToken s.orch.gen, owner := nextToken s.orch.gen, locked := true }
  | .release _ => { s.orch with locked := false, owner := 0#8, ctx := AesContext.none, macReady := false }
  | .keyInit _ => { s.orch with ctx := loadedContext s.mem s.orch.desc, macReady := false }
  | .macLoadKey _ => { s.orch with macReady := true }
  | .ecbEnc _ | .ecbDec _ | .cbcEnc _ | .cbcDec _ | .ctrEnc _ _ | .ctrDec _ _ | .macTag _ _ => s.orch

theorem exec_eq_command (i : Instr) (s : State) :
    exec i s = command s (checksOf s i) (writesOf s i) (orchAfter s i) := by
  cases i <;> rfl

/-- Everything a command can do (R78): it raises its first error or completes. -/
theorem command_cases {s t : State} {cs : List (Option Err)} {ws : List (Nat × List Byte)} {o : Orch}
    (h : command s cs ws o = .next t) :
    (∃ e, firstError cs = some e ∧ t = s.raise e) ∨ (firstError cs = none ∧ t = s.complete ws o) := by
  unfold command at h
  split at h
  · exact .inl ⟨_, ‹_›, by injection h with h; exact h.symm⟩
  · exact .inr ⟨‹_›, by injection h with h; exact h.symm⟩

/-- Everything `exec` can do. -/
theorem exec_cases {i : Instr} {s t : State} (h : exec i s = .next t) :
    (∃ e, firstError (checksOf s i) = some e ∧ t = s.raise e) ∨
      (firstError (checksOf s i) = none ∧ t = s.complete (writesOf s i) (orchAfter s i)) :=
  command_cases (exec_eq_command i s ▸ h)

/-! ### The first error -/

@[simp] theorem firstError_eq_none {l : List (Option Err)} : firstError l = none ↔ ∀ x ∈ l, x = none := by
  induction l with
  | nil => simp [firstError]
  | cons x xs ih => cases x <;> simp [firstError, ih]

@[simp] theorem failIf_eq_none {c : Bool} {e : Err} : failIf c e = none ↔ c = false := by
  cases c <;> simp [failIf]

/-! ### Regions -/

theorem admits_of_passes {p : Platform} {r : Region} : r.passes p = true ↔ (r.size = 0 ∨ r.admitted p) := by
  simp only [Region.passes, Region.admitted, Config.addressSpace, Bool.or_eq_true, Bool.and_eq_true, beq_iff_eq,
    List.all_eq_true, List.mem_range, Bool.not_eq_true', decide_eq_true_eq]
  constructor
  · rintro (h | ⟨h, h2⟩)
    · exact .inl h
    · refine .inr ⟨h, fun i hi => ?_⟩
      have := h2 i hi
      constructor <;> intro h3 <;> simp_all
  · rintro (h | ⟨h, h2⟩)
    · exact .inl h
    · refine .inr ⟨h, fun i hi => ?_⟩
      have := h2 i hi
      cases h3 : r.access.reads <;> cases h4 : r.access.writes <;> simp_all

theorem checkAccess_eq_none {p : Platform} {rs : List Region} :
    checkAccess p rs = none ↔ ¬ ∃ r ∈ rs, r.size ≠ 0 ∧ ¬ r.admitted p := by
  simp only [checkAccess, failIf_eq_none, Bool.not_eq_false', List.all_eq_true, admits_of_passes]
  constructor
  · rintro h ⟨r, hr, h1, h2⟩
    exact (h r hr).elim h1 h2
  · intro h r hr
    by_contra hc
    exact h ⟨r, hr, fun h0 => hc (.inl h0), fun h0 => hc (.inr h0)⟩

/-- The exempt pair of a command (R58). -/
def exemptOf : Instr → Option (RegionName × RegionName)
  | .macTag _ _ => some (.data, .tag)
  | .acquire _ | .release _ | .keyInit _ | .ecbEnc _ | .ecbDec _ | .cbcEnc _ | .cbcDec _ | .ctrEnc _ _ | .ctrDec _ _
  | .macLoadKey _ => none

theorem conflicts_iff_clash {i : Instr} {r q : Region} (h : r.name ≠ q.name) :
    r.conflicts (exemptOf i) q = true ↔ r.clash i q := by
  have he : exempted (exemptOf i) r.name q.name = true ↔
      (i.isMacTag = true ∧ (r.name = .data ∧ q.name = .tag ∨ r.name = .tag ∧ q.name = .data)) := by
    cases i <;> simp [exemptOf, exempted, Instr.isMacTag]
  simp only [Region.conflicts, Region.clash, Region.overlaps, Bool.and_eq_true, Bool.or_eq_true, Bool.not_eq_true',
    decide_eq_true_eq, ← he, Bool.not_eq_true]
  tauto

theorem clash_symm {i : Instr} {r q : Region} (h : r.clash i q) : q.clash i r := by
  unfold Region.clash at *
  tauto

theorem anyConflict_iff {i : Instr} {rs : List Region} (hd : rs.Pairwise fun r q => r.name ≠ q.name) :
    anyConflict (exemptOf i) rs = true ↔ ∃ r ∈ rs, ∃ q ∈ rs, r.clash i q := by
  induction rs with
  | nil => simp [anyConflict]
  | cons r rest ih =>
    obtain ⟨h1, h2⟩ := List.pairwise_cons.1 hd
    simp only [anyConflict, Bool.or_eq_true, List.any_eq_true, ih h2]
    constructor
    · rintro (⟨q, hq, hc⟩ | ⟨a, ha, b, hb, hc⟩)
      · exact ⟨r, by simp, q, by simp [hq], (conflicts_iff_clash (h1 q hq)).1 hc⟩
      · exact ⟨a, by simp [ha], b, by simp [hb], hc⟩
    · rintro ⟨a, ha, b, hb, hc⟩
      rcases List.mem_cons.1 ha with h | ha'
      · rcases List.mem_cons.1 hb with h' | hb'
        · exact absurd (h.trans h'.symm ▸ rfl) hc.1
        · exact .inl ⟨b, hb', (conflicts_iff_clash (h1 b hb')).2 (h ▸ hc)⟩
      · rcases List.mem_cons.1 hb with h' | hb'
        · exact .inl ⟨a, ha', (conflicts_iff_clash (h1 a ha')).2 (clash_symm (h' ▸ hc))⟩
        · exact .inr ⟨a, ha', b, hb', hc⟩

/-- The region functions of Operands.lean give R58's table. -/
theorem regions_eq (d : Descriptor) (i : Instr) :
    i.regions d = match i with
      | .acquire _ | .release _ => []
      | .keyInit _ => keyInitRegions d
      | .ecbEnc _ | .ecbDec _ => ecbRegions d
      | .cbcEnc _ | .cbcDec _ => cbcRegions d
      | .ctrEnc f _ | .ctrDec f _ => ctrRegions f d
      | .macTag f _ => macTagRegions f d
      | .macLoadKey _ => macLoadKeyRegions d := by
  cases i with
  | ctrEnc f t => cases f <;> rfl
  | ctrDec f t => cases f <;> rfl
  | macTag f t => cases f <;> rfl
  | _ => rfl

theorem regions_names (d : Descriptor) (i : Instr) : (i.regions d).Pairwise fun r q => r.name ≠ q.name := by
  cases i with
  | ctrEnc f t => cases f <;> simp [Instr.regions]
  | ctrDec f t => cases f <;> simp [Instr.regions]
  | macTag f t => cases f <;> simp [Instr.regions]
  | _ => simp [Instr.regions]

theorem checkAlias_eq_none (d : Descriptor) (i : Instr) :
    checkAlias (exemptOf i) (i.regions d) = none ↔ ¬ ∃ r ∈ i.regions d, ∃ q ∈ i.regions d, r.clash i q := by
  rw [checkAlias, failIf_eq_none, ← anyConflict_iff (regions_names d i), Bool.not_eq_true]

/-! ### The checks of R79, one by one -/

/-- The error of a check. -/
def Check.err : Check → Err
  | .engineHeld => .engineBusy
  | .engineFree => .notOwner
  | .wrongToken => .engineBusy
  | .noKey => .keyNotLoaded
  | .noMacKey => .macKeyNotLoaded
  | .badKeyLength => .invalidKeyLength
  | .badLength => .invalidLength
  | .badAccess => .accessFault
  | .aliasing => .bufferAliasing
  | .badOffset => .invalidStreamState

theorem check_code (c : Check) : c.err.code = c.code := by
  cases c <;> rfl

/-- The checks that can apply to a command, in R79's order. -/
def applicable : Instr → List Check
  | .acquire _ => [.engineHeld]
  | .release _ => [.engineFree, .wrongToken]
  | .keyInit _ => [.engineFree, .wrongToken, .badKeyLength, .badAccess, .aliasing]
  | .ecbEnc _ | .ecbDec _ | .cbcEnc _ | .cbcDec _ | .macLoadKey _ =>
    [.engineFree, .wrongToken, .noKey, .badLength, .badAccess, .aliasing]
  | .ctrEnc _ _ | .ctrDec _ _ => [.engineFree, .wrongToken, .noKey, .badAccess, .aliasing, .badOffset]
  | .macTag _ _ => [.engineFree, .wrongToken, .noKey, .noMacKey, .badLength, .badAccess, .aliasing]

theorem applicable_sorted (i : Instr) : (applicable i).Pairwise fun a b => a.rank < b.rank := by
  cases i <;> simp [applicable, Check.rank]

/-- A check that fails is applicable. -/
theorem fails_applicable {i : Instr} {s : State} {c : Check} (h : c.fails i s) : c ∈ applicable i := by
  cases c <;> cases i <;> revert h <;>
    simp [Check.fails, applicable, Instr.isAcquire, Instr.isCipher, Instr.isMacTag, Instr.isKeyInit,
      Instr.lengthBroken, Instr.regions, Instr.resumesStream]

open Classical in
/-- What one entry of a command's checks is. -/
noncomputable def entry (i : Instr) (s : State) (c : Check) : Option Err :=
  if c.fails i s then some c.err else none

theorem failIf_shape (b : Bool) (e : Err) : failIf b e = none ∨ failIf b e = some e := by
  cases b <;> simp [failIf]

theorem eq_entry {o : Option Err} (c : Check) (i : Instr) (s : State) (hs : o = none ∨ o = some c.err)
    (h : o = none ↔ ¬ c.fails i s) : o = entry i s c := by
  unfold entry
  split
  · rcases hs with hs | hs
    · exact absurd ‹_› (h.1 hs)
    · exact hs
  · exact h.2 ‹_›

theorem checkAccess_entry (i : Instr) (s : State) :
    checkAccess s.platform (i.regions s.orch.desc) = entry i s .badAccess :=
  eq_entry .badAccess i s (failIf_shape _ _) checkAccess_eq_none

theorem checkAlias_entry (i : Instr) (s : State) :
    checkAlias (exemptOf i) (i.regions s.orch.desc) = entry i s .aliasing :=
  eq_entry .aliasing i s (failIf_shape _ _) (checkAlias_eq_none s.orch.desc i)

theorem checkLocked_entry (i : Instr) (s : State) (h : i.isAcquire = false) :
    checkLocked s.orch = entry i s .engineFree :=
  eq_entry .engineFree i s (failIf_shape _ _) (by simp [checkLocked, Check.fails, h])

theorem checkToken_entry (i : Instr) (s : State) (h : i.isAcquire = false) :
    checkToken i.token s.orch = entry i s .wrongToken :=
  eq_entry .wrongToken i s (failIf_shape _ _) (by simp [checkToken, Check.fails, h])

theorem checkKeyLoaded_entry (i : Instr) (s : State) (h : i.isCipher = true) :
    checkKeyLoaded s.orch = entry i s .noKey :=
  eq_entry .noKey i s (failIf_shape _ _) (by simp [checkKeyLoaded, Check.fails, h])

theorem dvd_iff_mod (n : Nat) : 16 ∣ n ↔ n % Config.blockBytes = 0 :=
  Nat.dvd_iff_mod_eq_zero ..

theorem checkBlockLength_entry (i : Instr) (s : State)
    (h : i.lengthBroken s.orch.desc = ¬ 16 ∣ s.orch.desc.len.toNat) :
    checkBlockLength s.orch.desc = entry i s .badLength :=
  eq_entry .badLength i s (failIf_shape _ _)
    (by simp [checkBlockLength, Check.fails, h, dvd_iff_mod, Descriptor.length])

theorem checkStream_entry (i : Instr) (f : Bool) (s : State) (h : i.resumesStream = !f) :
    checkStream f s.mem s.orch.desc = entry i s .badOffset :=
  eq_entry .badOffset i s (failIf_shape _ _)
    (by
      rw [checkStream, failIf_eq_none, Check.fails, h, ← Bool.not_eq_true, Bool.and_eq_true, decide_eq_true_eq]
      rfl)

theorem keyClassOfBits_isNone (n : Nat) : (keyClassOfBits n).isNone = true ↔ n ≠ 128 ∧ n ≠ 192 ∧ n ≠ 256 := by
  unfold keyClassOfBits
  split_ifs <;> simp_all

/-- The checks of every command, entry by entry, are R79's checks that can apply to it, in order. -/
theorem checksOf_eq_entries (i : Instr) (s : State) : checksOf s i = (applicable i).map (entry i s) := by
  have ha := checkAccess_entry i s
  have hl := checkAlias_entry i s
  have h1 := checkLocked_entry i s
  have h2 := checkToken_entry i s
  have h3 := checkKeyLoaded_entry i s
  have h4 := checkBlockLength_entry i s
  rw [regions_eq] at ha hl
  cases i with
  | acquire t =>
    have : checkFree s.orch = entry (.acquire t) s .engineHeld :=
      eq_entry .engineHeld _ s (failIf_shape _ _) (by simp [checkFree, Check.fails, Instr.isAcquire])
    simp [checksOf, applicable, this]
  | release t =>
    simp only [Instr.token] at h2
    simp [checksOf, applicable, ownerChecks, h1 rfl, h2 rfl]
  | keyInit t =>
    have h5 : checkKeyLength s.orch.desc = entry (.keyInit t) s .badKeyLength :=
      eq_entry .badKeyLength _ s (failIf_shape _ _) (by
        rw [checkKeyLength, failIf_eq_none, ← Bool.not_eq_true, Bool.or_eq_true, keyClassOfBits_isNone]
        simp [Check.fails, Instr.isKeyInit])
    simp only [Instr.token] at h2
    simp only [exemptOf] at hl
    simp [checksOf, applicable, ownerChecks, regionChecks, h1 rfl, h2 rfl, h5, ha, hl]
  | ecbEnc t | ecbDec t | cbcEnc t | cbcDec t =>
    simp only [Instr.token] at h2
    simp only [exemptOf] at hl
    simp [checksOf, applicable, ownerChecks, blockModeChecks, regionChecks, h1 rfl, h2 rfl, h3 rfl, h4 rfl, ha, hl]
  | ctrEnc f t =>
    have h5 := checkStream_entry (.ctrEnc f t) f s rfl
    simp only [Instr.token] at h2
    simp only [exemptOf] at hl
    simp [checksOf, applicable, ownerChecks, ctrChecks, regionChecks, h1 rfl, h2 rfl, h3 rfl, ha, hl, h5]
  | ctrDec f t =>
    have h5 := checkStream_entry (.ctrDec f t) f s rfl
    simp only [Instr.token] at h2
    simp only [exemptOf] at hl
    simp [checksOf, applicable, ownerChecks, ctrChecks, regionChecks, h1 rfl, h2 rfl, h3 rfl, ha, hl, h5]
  | macTag f t =>
    have h5 : checkMacReady s.orch = entry (.macTag f t) s .noMacKey :=
      eq_entry .noMacKey _ s (failIf_shape _ _) (by simp [checkMacReady, Check.fails, Instr.isMacTag])
    have h6 : checkMacLength s.orch.desc = entry (.macTag f t) s .badLength :=
      eq_entry .badLength _ s (failIf_shape _ _)
        (by simp [checkMacLength, Check.fails, Instr.lengthBroken, dvd_iff_mod, Descriptor.length])
    simp only [Instr.token] at h2
    simp only [exemptOf] at hl
    simp [checksOf, applicable, ownerChecks, regionChecks, h1 rfl, h2 rfl, h3 rfl, h5, h6, ha, hl]
  | macLoadKey t =>
    have h5 : checkOneBlock s.orch.desc = entry (.macLoadKey t) s .badLength :=
      eq_entry .badLength _ s (failIf_shape _ _)
        (by simp [checkOneBlock, Check.fails, Instr.lengthBroken, Descriptor.length, Config.blockBytes])
    simp only [Instr.token] at h2
    simp only [exemptOf] at hl
    simp [checksOf, applicable, ownerChecks, regionChecks, h1 rfl, h2 rfl, h3 rfl, h5, ha, hl]

/-- No check fails exactly when the command has no first error. -/
theorem clear_iff {i : Instr} {s : State} : Clear i s ↔ firstError (checksOf s i) = none := by
  rw [checksOf_eq_entries, firstError_eq_none]
  constructor
  · intro h x hx
    obtain ⟨c, -, rfl⟩ := List.mem_map.1 hx
    exact if_neg (h c)
  · intro h c hc
    have := h _ (List.mem_map.2 ⟨c, fails_applicable hc, rfl⟩)
    simp [entry, hc] at this

/-- A command no check stops completes (R80). -/
theorem exec_of_clear {i : Instr} {s : State} (h : Clear i s) :
    exec i s = .next (s.complete (writesOf s i) (orchAfter s i)) := by
  rw [exec_eq_command, command, clear_iff.1 h]

/-- A command that reports success passed every check and completed. -/
theorem exec_success {i : Instr} {s t : State} (h : exec i s = .next t) (hf : t.orch.fail = false) :
    Clear i s ∧ t = s.complete (writesOf s i) (orchAfter s i) := by
  rcases exec_cases h with ⟨e, -, rfl⟩ | ⟨h1, rfl⟩
  · simp at hf
  · exact ⟨clear_iff.2 h1, rfl⟩

/-- The first error of a list of checks in order is that of its first failing check. -/
theorem firstError_entries {i : Instr} {s : State} {l : List Check} {c : Check}
    (hs : l.Pairwise fun a b => a.rank < b.rank) (hc : c ∈ l) (h : FirstFailure i s c) :
    firstError (l.map (entry i s)) = some c.err := by
  induction l with
  | nil => cases hc
  | cons d l ih =>
    obtain ⟨h1, h2⟩ := List.pairwise_cons.1 hs
    rcases List.mem_cons.1 hc with rfl | hc
    · simp [entry, h.1, firstError]
    · have hd : ¬ d.fails i s := h.2 d (h1 c hc)
      simpa [entry, hd, firstError] using ih h2 hc

theorem entries_firstError {i : Instr} {s : State} {l : List Check} {e : Err}
    (hs : l.Pairwise fun a b => a.rank < b.rank) (h : firstError (l.map (entry i s)) = some e) :
    ∃ c ∈ l, c.fails i s ∧ c.err = e ∧ ∀ d ∈ l, d.rank < c.rank → ¬ d.fails i s := by
  induction l with
  | nil => simp [firstError] at h
  | cons d l ih =>
    obtain ⟨h1, h2⟩ := List.pairwise_cons.1 hs
    by_cases hd : d.fails i s
    · refine ⟨d, by simp, hd, by simpa [entry, hd, firstError] using h, fun x hx hr => ?_⟩
      rcases List.mem_cons.1 hx with rfl | hx
      · omega
      · have := h1 x hx
        omega
    · simp only [List.map_cons, entry, hd, if_false, firstError] at h
      obtain ⟨c, hc, hf, he, hm⟩ := ih h2 h
      refine ⟨c, by simp [hc], hf, he, fun x hx hr => ?_⟩
      rcases List.mem_cons.1 hx with rfl | hx
      · exact hd
      · exact hm x hx hr

/-- A command's first error comes from its first failing check. -/
theorem firstFailure_of_error {i : Instr} {s : State} {e : Err} (h : firstError (checksOf s i) = some e) :
    ∃ c, FirstFailure i s c ∧ c.err = e := by
  rw [checksOf_eq_entries] at h
  obtain ⟨c, -, hf, he, hm⟩ := entries_firstError (applicable_sorted i) h
  exact ⟨c, ⟨hf, fun d hd hdf => hm d (fails_applicable hdf) hd hdf⟩, he⟩

/-- A failing check gives its error as the command's first one, when no earlier check fails. -/
theorem error_of_firstFailure {i : Instr} {s : State} {c : Check} (h : FirstFailure i s c) :
    firstError (checksOf s i) = some c.err := by
  rw [checksOf_eq_entries]
  exact firstError_entries (applicable_sorted i) (fails_applicable h.1) h

theorem raise_eq_failedWith (c : Check) (s : State) : s.raise c.err = failedWith c.code s := by
  rw [State.raise, failedWith, check_code]

/-- Two regions of a command that passed its checks, one of them written and not the exempt pair, have no byte in
common. -/
theorem clear_disjoint {i : Instr} {s : State} (h : Clear i s) {r q : Region} (hr : r ∈ i.regions s.orch.desc)
    (hq : q ∈ i.regions s.orch.desc) (hn : r.name ≠ q.name) (hw : r.access.writes = true ∨ q.access.writes = true)
    (he : ¬ (i.isMacTag = true ∧ (r.name = .data ∧ q.name = .tag ∨ r.name = .tag ∧ q.name = .data)))
    {x : Nat} (h1 : r.base ≤ x) (h2 : x < r.base + r.size) : ¬ (q.base ≤ x ∧ x < q.base + q.size) := by
  rintro ⟨h3, h4⟩
  exact h .aliasing ⟨r, hr, q, hq, hn, hw, by omega, by omega, by omega, by omega, he⟩

/-- A region of a command that passed its checks does not wrap. -/
theorem clear_bound {i : Instr} {s : State} (h : Clear i s) {r : Region} (hr : r ∈ i.regions s.orch.desc)
    (h0 : r.size ≠ 0) : r.base + r.size ≤ 2 ^ 32 := by
  by_contra hc
  exact h .badAccess ⟨r, hr, h0, fun ha => hc ha.1⟩

end Sys2Proof.Machine
end

