-- ==== Sys2Proof/Laws/Modes.lean ====
section
/-! SUPPORT. The data paths of the modes: lengths, and the byte-at-a-time form of `ctr_process`. -/

namespace Sys2Proof.Machine

/-! ### CBC and the MAC -/

@[simp] theorem length_cbcEncrypt (enc : Block → Block) (cv : Block) (ps : List Block) :
    (cbcEncrypt enc cv ps).length = ps.length := by
  induction ps generalizing cv with
  | nil => rfl
  | cons p ps ih => simp [cbcEncrypt, ih]

@[simp] theorem length_cbcDecrypt (dec : Block → Block) (cv : Block) (xs : List Block) :
    (cbcDecrypt dec cv xs).length = xs.length := by
  induction xs generalizing cv with
  | nil => rfl
  | cons x xs ih => simp [cbcDecrypt, ih]

@[simp] theorem length_macChain (enc : Block → Block) (cv : Block) (ms : List Block) :
    (macChain enc cv ms).1.length = ms.length - 1 := by
  induction ms generalizing cv with
  | nil => rfl
  | cons m ms ih =>
    cases ms with
    | nil => rfl
    | cons m' ms =>
      have := ih (enc (m.xor cv))
      simp only [macChain, List.length_cons] at *
      omega

/-! ### The byte-at-a-time form of `ctr_process` -/

/-- One byte a turn: a refresh when the cache is stale, then one exclusive or. -/
def ctrBytes (enc : Block → Block) : CtrStream → List Byte → List Byte × CtrStream
  | st, [] => ([], st)
  | st, x :: xs =>
    let st1 := st.refresh enc
    let rest := ctrBytes enc (st1.consume 1) xs
    ((x ^^^ st1.cache.bytes.getD st1.offset 0#8) :: rest.1, rest.2)

@[simp] theorem refresh_offset (enc : Block → Block) (st : CtrStream) : (st.refresh enc).offset = st.offset := by
  unfold CtrStream.refresh
  split
  · exact Eq.symm ‹_›
  · rfl

@[simp] theorem consume_offset (st : CtrStream) (n : Nat) : (st.consume n).offset = (st.offset + n) % 16 := rfl

@[simp] theorem consume_counter (st : CtrStream) (n : Nat) : (st.consume n).counter = st.counter := rfl

@[simp] theorem consume_cache (st : CtrStream) (n : Nat) : (st.consume n).cache = st.cache := rfl

theorem consume_consume (st : CtrStream) (n k : Nat) : (st.consume n).consume k = st.consume (n + k) := by
  simp [CtrStream.consume, Nat.add_assoc]

theorem refresh_of_ne {enc : Block → Block} {st : CtrStream} (h : st.offset ≠ 0) : st.refresh enc = st := by
  simp [CtrStream.refresh, h]

/-- The stream is consumed byte by byte, so a split of the input is a split of the work. -/
theorem ctrBytes_append (enc : Block → Block) (st : CtrStream) (a b : List Byte) :
    ctrBytes enc st (a ++ b) =
      ((ctrBytes enc st a).1 ++ (ctrBytes enc (ctrBytes enc st a).2 b).1, (ctrBytes enc (ctrBytes enc st a).2 b).2) := by
  induction a generalizing st with
  | nil => simp [ctrBytes]
  | cons x xs ih => simp [ctrBytes, ih]

theorem ctrBytes_offset (enc : Block → Block) (st : CtrStream) (h : st.offset < 16) (l : List Byte) :
    (ctrBytes enc st l).2.offset < 16 := by
  induction l generalizing st with
  | nil => exact h
  | cons x xs ih => exact ih _ (Nat.mod_lt _ (by norm_num))

@[simp] theorem length_ctrBytes (enc : Block → Block) (st : CtrStream) (l : List Byte) :
    (ctrBytes enc st l).1.length = l.length := by
  induction l generalizing st with
  | nil => rfl
  | cons x xs ih => simp [ctrBytes, ih]

/-- One turn of the loop, inside one keystream block, is so many turns of one byte. -/
theorem ctrBytes_chunk (enc : Block → Block) (st : CtrStream) (x : Byte) (xs : List Byte)
    (h : st.offset + (x :: xs).length ≤ 16) :
    ctrBytes enc st (x :: xs) =
      (xorBytes (x :: xs) ((st.refresh enc).keystream (x :: xs).length), (st.refresh enc).consume (x :: xs).length) := by
  induction xs generalizing st x with
  | nil =>
    have hlt : st.offset < (st.refresh enc).cache.bytes.length := by
      rw [(st.refresh enc).cache.size_eq]; simp only [List.length_cons, List.length_nil] at h; omega
    simp only [ctrBytes, CtrStream.keystream, refresh_offset, List.length_cons, List.length_nil, Nat.zero_add,
      List.drop_eq_getElem_cons hlt, List.take_succ_cons, List.take_zero, xorBytes, List.zipWith_cons_cons,
      List.zipWith_nil_left, List.getD_eq_getElem _ _ hlt]
  | cons y ys ih =>
    simp only [List.length_cons] at h
    have hlt : st.offset < (st.refresh enc).cache.bytes.length := by
      rw [(st.refresh enc).cache.size_eq]; omega
    have hoff : ((st.refresh enc).consume 1).offset = st.offset + 1 := by
      rw [consume_offset, refresh_offset, Nat.mod_eq_of_lt (by omega)]
    have hrec := ih ((st.refresh enc).consume 1) y (by rw [hoff]; simp only [List.length_cons]; omega)
    rw [refresh_of_ne (st := (st.refresh enc).consume 1) (by rw [hoff]; omega), consume_consume] at hrec
    simp only [ctrBytes, refresh_offset] at hrec ⊢
    rw [Prod.mk.injEq] at hrec ⊢
    refine ⟨?_, ?_⟩
    · rw [hrec.1]
      simp only [CtrStream.keystream, refresh_offset, hoff, consume_cache, List.length_cons,
        List.drop_eq_getElem_cons hlt, List.take_succ_cons, xorBytes, List.zipWith_cons_cons,
        List.getD_eq_getElem _ _ hlt]
    · rw [hrec.2]
      simp only [List.length_cons]
      congr 1
      omega

/-- The loop of R142 is the byte-at-a-time form. -/
theorem ctrLoop_eq (enc : Block → Block) (fuel : Nat) (st : CtrStream) (l : List Byte) (hf : l.length ≤ fuel)
    (h : st.offset < 16) : ctrLoop enc fuel st l = ctrBytes enc st l := by
  induction fuel generalizing st l with
  | zero =>
    have : l = [] := List.length_eq_zero_iff.1 (by omega)
    subst this
    rfl
  | succ fuel ih =>
    cases l with
    | nil => rfl
    | cons x xs =>
      simp only [ctrLoop, CtrStream.chunk, Config.blockBytes, refresh_offset]
      generalize hn : min (16 - st.offset) (x :: xs).length = n
      have hn1 : 1 ≤ n := by simp only [List.length_cons] at hn; omega
      have hn2 : n ≤ (x :: xs).length := by omega
      have hn3 : st.offset + n ≤ 16 := by omega
      rw [ih _ _ (by simp only [List.length_drop, List.length_cons] at *; omega) (Nat.mod_lt _ (by norm_num))]
      obtain ⟨k, rfl⟩ : ∃ k, n = k + 1 := ⟨n - 1, by omega⟩
      have htake : (x :: xs).take (k + 1) = x :: xs.take k := rfl
      have hlen : (x :: xs.take k).length = k + 1 := by
        simp only [List.length_cons, List.length_take] at *
        omega
      conv_rhs => rw [← List.take_append_drop (k + 1) (x :: xs), ctrBytes_append, htake,
        ctrBytes_chunk enc st x (xs.take k) (by rw [hlen]; exact hn3), hlen]
      rw [htake]

theorem ctrProcess_eq (enc : Block → Block) (st : CtrStream) (h : st.offset < 16) (l : List Byte) :
    ctrProcess enc st l = ctrBytes enc st l :=
  ctrLoop_eq enc l.length st l (Nat.le_refl _) h

@[simp] theorem length_record (st : CtrStream) : st.record.length = 33 := by
  simp [CtrStream.record, st.counter.size_eq, st.cache.size_eq]

/-! ### Closed forms: CBC and the MAC -/

theorem getElem_cbcEncrypt (enc : Block → Block) (cv : Block) (ps : List Block) (j : Nat) (h : j < ps.length) :
    (cbcEncrypt enc cv ps)[j]'(by simpa using h) =
      enc (ps[j].xor (if j = 0 then cv else (cbcEncrypt enc cv ps)[j - 1]'(by simp; omega))) := by
  induction ps generalizing cv j with
  | nil => simp at h
  | cons p ps ih =>
    cases j with
    | zero => simp [cbcEncrypt]
    | succ j =>
      simp only [cbcEncrypt, List.getElem_cons_succ]
      rw [ih _ j (by simpa using h)]
      cases j <;> simp

theorem getElem_cbcDecrypt (dec : Block → Block) (cv : Block) (xs : List Block) (j : Nat) (h : j < xs.length) :
    (cbcDecrypt dec cv xs)[j]'(by simpa using h) =
      (dec xs[j]).xor (if j = 0 then cv else xs[j - 1]'(by omega)) := by
  induction xs generalizing cv j with
  | nil => simp at h
  | cons x xs ih =>
    cases j with
    | zero => simp [cbcDecrypt]
    | succ j =>
      simp only [cbcDecrypt, List.getElem_cons_succ]
      rw [ih _ j (by simpa using h)]
      cases j <;> simp

theorem cbcChain_succ (enc : Block → Block) (iv : Block) (m : Nat → Block) (j : Nat) :
    cbcChain enc iv m (j + 1) = cbcChain enc (enc ((m 0).xor iv)) (fun k => m (k + 1)) j := by
  induction j with
  | zero => simp [cbcChain]
  | succ j ih => rw [cbcChain, ih]; simp [cbcChain]

theorem cbcChain_congr {enc : Block → Block} {iv : Block} {m m' : Nat → Block} {n : Nat}
    (h : ∀ j, j ≤ n → m' j = m j) : cbcChain enc iv m' n = cbcChain enc iv m n := by
  induction n with
  | zero => simp [cbcChain, h 0]
  | succ n ih => rw [cbcChain, cbcChain, ih (fun j hj => h j (by omega)), h (n + 1) (by omega)]

/-- The tag is the last chaining value, the scratch blocks are the ones before it (R162). -/
theorem macChain_eq_cbcChain (enc : Block → Block) (cv : Block) (l : List Block) (m : Nat → Block)
    (hm : ∀ j (h : j < l.length), l[j] = m j) (hl : l ≠ []) :
    (macChain enc cv l).2 = cbcChain enc cv m (l.length - 1) ∧
      ∀ j (h : j < (macChain enc cv l).1.length), (macChain enc cv l).1[j] = cbcChain enc cv m j := by
  induction l generalizing cv m with
  | nil => exact absurd rfl hl
  | cons a l ih =>
    have h0 : a = m 0 := hm 0 (by simp)
    cases l with
    | nil =>
      refine ⟨?_, fun j h => ?_⟩
      · simp [macChain, cbcChain, h0, block_xor_comm]
      · simp [macChain] at h
    | cons b l =>
      obtain ⟨h1, h2⟩ := ih (enc (a.xor cv)) (fun k => m (k + 1))
        (fun j h => hm (j + 1) (by simpa using h)) (by simp)
      refine ⟨?_, fun j h => ?_⟩
      · simp only [macChain, h1, List.length_cons, Nat.add_sub_cancel]
        rw [cbcChain_succ, h0]
      · cases j with
        | zero => simp [macChain, cbcChain, h0]
        | succ j =>
          simp only [macChain, List.getElem_cons_succ]
          rw [h2, cbcChain_succ, h0]

/-! ### Closed forms: counter mode -/

theorem counterAfter_zero (c : Block) : counterAfter c 0 = c := by
  rw [counterAfter, Nat.add_zero, Nat.mod_eq_of_lt (be_lt c), unbe_be]

theorem counterAfter_increment (c : Block) (k : Nat) : counterAfter c.increment k = counterAfter c (k + 1) := by
  rw [counterAfter, counterAfter, Block.increment, be_unbe _ (Nat.mod_lt _ (by norm_num)), Nat.mod_add_mod]
  congr 2
  omega

theorem keystreamByte_zero (enc : Block → Block) (st : CtrStream) (h : st.offset < 16) :
    keystreamByte enc st 0 = (st.refresh enc).cache.bytes.getD (st.refresh enc).offset 0#8 := by
  unfold keystreamByte
  by_cases h0 : st.offset = 0
  · simp [h0, CtrStream.refresh, counterAfter_zero]
  · simp [h0, refresh_of_ne h0, h]

theorem keystreamByte_succ (enc : Block → Block) (st : CtrStream) (h : st.offset < 16) (j : Nat) :
    keystreamByte enc st (j + 1) = keystreamByte enc ((st.refresh enc).consume 1) j := by
  unfold keystreamByte
  rw [consume_offset, refresh_offset]
  by_cases h0 : st.offset = 0
  · simp only [h0, CtrStream.refresh, if_true, consume_cache, consume_counter, show (0 + 1) % 16 = 1 from rfl,
      Nat.one_ne_zero, if_false]
    split_ifs with h1
    · rw [show (j + 1) / 16 = 0 by omega, counterAfter_zero, show (j + 1) % 16 = 1 + j by omega]
    · rw [counterAfter_increment, show (1 + j) / 16 - 1 + 1 = (j + 1) / 16 by omega, Nat.add_comm 1 j]
  · simp only [h0, if_false, refresh_of_ne h0, consume_cache, consume_counter]
    by_cases h15 : st.offset = 15
    · simp only [h15, show (15 + 1) % 16 = 0 from rfl, if_true]
      rw [if_neg (by omega), show (15 + (j + 1)) / 16 - 1 = j / 16 by omega,
        show (15 + (j + 1)) % 16 = j % 16 by omega]
    · rw [Nat.mod_eq_of_lt (by omega : st.offset + 1 < 16), show st.offset + (j + 1) = st.offset + 1 + j by omega]
      split_ifs <;> first | rfl | contradiction

theorem streamAfter_zero (enc : Block → Block) (st : CtrStream) (h : st.offset < 16) : streamAfter enc st 0 = st := by
  have : blocksGenerated st.offset 0 = 0 := by unfold blocksGenerated; split_ifs <;> omega
  cases st
  simp only [streamAfter, this, counterAfter_zero, if_true, CtrStream.mk.injEq, true_and]
  simp at h ⊢
  omega

theorem streamAfter_succ (enc : Block → Block) (st : CtrStream) (h : st.offset < 16) (n : Nat) :
    streamAfter enc st (n + 1) = streamAfter enc ((st.refresh enc).consume 1) n := by
  unfold streamAfter
  rw [consume_offset, refresh_offset, CtrStream.mk.injEq]
  by_cases h0 : st.offset = 0
  · have hb : blocksGenerated 0 (n + 1) = blocksGenerated 1 n + 1 := by unfold blocksGenerated; simp; omega
    simp only [h0, CtrStream.refresh, if_true, consume_cache, consume_counter, show (0 + 1) % 16 = 1 from rfl, hb]
    refine ⟨by rw [counterAfter_increment], ?_, by omega⟩
    rw [if_neg (by omega)]
    split_ifs with h1
    · rw [h1, counterAfter_zero]
    · rw [counterAfter_increment]
      congr 2
      omega
  · have hb : blocksGenerated st.offset (n + 1) = blocksGenerated ((st.offset + 1) % 16) n := by
      unfold blocksGenerated
      split_ifs <;> omega
    simp only [refresh_of_ne h0, consume_cache, consume_counter, hb]
    exact ⟨trivial, trivial, by omega⟩

/-- The byte-at-a-time form in closed form (R148). -/
theorem ctrBytes_closed (enc : Block → Block) (st : CtrStream) (h : st.offset < 16) (l : List Byte) :
    (∀ j (hj : j < l.length), (ctrBytes enc st l).1[j]'(by simpa using hj) = l[j] ^^^ keystreamByte enc st j) ∧
      (ctrBytes enc st l).2 = streamAfter enc st l.length := by
  induction l generalizing st with
  | nil => exact ⟨fun j hj => by simp at hj, (streamAfter_zero enc st h).symm⟩
  | cons x xs ih =>
    obtain ⟨h1, h2⟩ := ih ((st.refresh enc).consume 1) (Nat.mod_lt _ (by norm_num))
    refine ⟨fun j hj => ?_, ?_⟩
    · cases j with
      | zero => simp [ctrBytes, keystreamByte_zero enc st h]
      | succ j =>
        simp only [ctrBytes, List.getElem_cons_succ]
        rw [h1, keystreamByte_succ enc st h]
    · simp only [ctrBytes, List.length_cons, h2, streamAfter_succ enc st h]

/-- A stored record reads back as the stream it holds (R33). -/
theorem readRecord {m : Memory} {a : Nat} {st : CtrStream} (hr : m.readBytes a 33 = st.record) (ho : st.offset < 16) :
    m.readBlock a = st.counter ∧ m.readBlock (a + 16) = st.cache ∧ (m.byteAt (a + 32)).toNat = st.offset := by
  have hlist : m.readBytes a 16 ++ m.readBytes (a + 16) 16 ++ m.readBytes (a + 32) 1 =
      st.counter.bytes ++ st.cache.bytes ++ [BitVec.ofNat 8 st.offset] := by
    rw [← readBytes_add, show a + 32 = a + (16 + 16) by ring, ← readBytes_add]
    exact hr
  obtain ⟨h1, h2⟩ := List.append_inj hlist (by simp [st.counter.size_eq, st.cache.size_eq])
  obtain ⟨h3, h4⟩ := List.append_inj h1 (by simp [st.counter.size_eq])
  refine ⟨block_ext h3, block_ext h4, ?_⟩
  simp [Memory.readBytes] at h2
  simp [h2]
  omega

end Sys2Proof.Machine
end

