-- ==== Sys2Proof/Laws/PerInstr.lean ====
section
/-! SUPPORT. Statements made per instruction, as syntax: every well-formed command's word selects the row of the opcode
table that has its mnemonic (30_encoding.md R76). -/

namespace Sys2Proof.Laws.SelectsItsRow

/-- The word of the command selects the row of its mnemonic. -/
def Statement (i : Instr) : Prop :=
  i.wellFormed = true → ∃ r ∈ opcodeTable, r.mnemonic = i.mnemonic ∧ r.selectedBy (encode i) = true

theorem of_row {i : Instr} (r : OpcodeRow) (hr : r ∈ opcodeTable) (hm : r.mnemonic = i.mnemonic)
    (h : ∀ t : Fin 256, r.selectedBy (assemble i.modeOpFlag.1 i.modeOpFlag.2.1 i.modeOpFlag.2.2 t.val) = true) :
    Statement i := by
  intro hw
  have ht : i.token < 256 := by simpa [Instr.wellFormed] using hw
  exact ⟨r, hr, hm, h ⟨i.token, ht⟩⟩

theorem acquire (tok : Nat) : Statement (.acquire tok) :=
  of_row ⟨"ACQUIRE", 0x00000000#32, 0xFF00FFFF#32⟩ (by decide) rfl (by simp only [Instr.modeOpFlag]; decide +kernel)

theorem release (tok : Nat) : Statement (.release tok) :=
  of_row ⟨"RELEASE", 0x00000010#32, 0xFF00FFFF#32⟩ (by decide) rfl (by simp only [Instr.modeOpFlag]; decide +kernel)

theorem keyInit (tok : Nat) : Statement (.keyInit tok) :=
  of_row ⟨"KEY_INIT", 0x00000001#32, 0xFF00FFFF#32⟩ (by decide) rfl (by simp only [Instr.modeOpFlag]; decide +kernel)

theorem ecbEnc (tok : Nat) : Statement (.ecbEnc tok) :=
  of_row ⟨"ECB_ENC", 0x00000002#32, 0xFF00FFFF#32⟩ (by decide) rfl (by simp only [Instr.modeOpFlag]; decide +kernel)

theorem ecbDec (tok : Nat) : Statement (.ecbDec tok) :=
  of_row ⟨"ECB_DEC", 0x00000012#32, 0xFF00FFFF#32⟩ (by decide) rfl (by simp only [Instr.modeOpFlag]; decide +kernel)

theorem cbcEnc (tok : Nat) : Statement (.cbcEnc tok) :=
  of_row ⟨"CBC_ENC", 0x00000003#32, 0xFF00FFFF#32⟩ (by decide) rfl (by simp only [Instr.modeOpFlag]; decide +kernel)

theorem cbcDec (tok : Nat) : Statement (.cbcDec tok) :=
  of_row ⟨"CBC_DEC", 0x00000013#32, 0xFF00FFFF#32⟩ (by decide) rfl (by simp only [Instr.modeOpFlag]; decide +kernel)

theorem ctrEnc (init : Bool) (tok : Nat) : Statement (.ctrEnc init tok) :=
  of_row ⟨"CTR_ENC", 0x00000004#32, 0xFF00FEFF#32⟩ (by decide) rfl (by cases init <;> simp only [Instr.modeOpFlag] <;> decide +kernel)

theorem ctrDec (init : Bool) (tok : Nat) : Statement (.ctrDec init tok) :=
  of_row ⟨"CTR_DEC", 0x00000014#32, 0xFF00FEFF#32⟩ (by decide) rfl (by cases init <;> simp only [Instr.modeOpFlag] <;> decide +kernel)

theorem macTag (seed : Bool) (tok : Nat) : Statement (.macTag seed tok) :=
  of_row ⟨"MAC_TAG", 0x00000005#32, 0xFF00FEFF#32⟩ (by decide) rfl (by cases seed <;> simp only [Instr.modeOpFlag] <;> decide +kernel)

theorem macLoadKey (tok : Nat) : Statement (.macLoadKey tok) :=
  of_row ⟨"MAC_LOAD_KEY", 0x00000025#32, 0xFF00FFFF#32⟩ (by decide) rfl (by simp only [Instr.modeOpFlag]; decide +kernel)

end Sys2Proof.Laws.SelectsItsRow
end

