-- ==== Sys2Proof/Laws/Step.lean ====
section
/-! SUPPORT. What one step can do, said once. -/

namespace Sys2Proof.Machine

/-- Where an access that reaches a slot of the window stands (R21, R22). -/
theorem hostTarget_slot {p : Platform} {addr : Word} {size : AccessSize} {off : Nat}
    (h : hostTarget p addr size = .slot off) :
    size = .word ∧ p.aesBase.toNat ≤ addr.toNat ∧ addr.toNat < p.aesBase.toNat + 64 ∧
      (addr.toNat - p.aesBase.toNat) % 4 = 0 ∧ off = addr.toNat - p.aesBase.toNat := by
  simp only [hostTarget, Config.windowBytes] at h
  split at h
  · rename_i h1
    split at h
    · rename_i h2
      injection h with h
      exact ⟨h2.1, h2.2.1, h1.2, h2.2.2, h.symm⟩
    · cases h
  · split at h <;> cases h

theorem hostTarget_memoryByte {p : Platform} {addr : Word} {size : AccessSize}
    (h : hostTarget p addr size = .memoryByte) : size = .byte := by
  simp only [hostTarget, Config.windowBytes] at h
  split at h
  · split at h <;> cases h
  · split at h
    · assumption
    · cases h

/-- A word access at `AES_BASE` + `off` reaches the slot at `off`, when the window does not wrap. -/
theorem hostTarget_window {p : Platform} {off : Nat} (hb : p.aesBase.toNat + 64 ≤ 2 ^ 32) (ho : off < 64)
    (h4 : off % 4 = 0) : hostTarget p (p.windowAddr off) .word = .slot off := by
  have ha : (p.windowAddr off).toNat = p.aesBase.toNat + off := by
    simp only [Platform.windowAddr, BitVec.toNat_add, BitVec.toNat_ofNat]
    omega
  simp only [hostTarget, Config.windowBytes, ha, AccessSize.bytes]
  rw [if_pos (by omega), if_pos ⟨trivial, by omega, by omega⟩]
  congr 1
  omega

/-- A word access at `AES_BASE` reaches `CMD`, wherever the window stands. -/
theorem hostTarget_cmd (p : Platform) : hostTarget p p.aesBase .word = .slot 0 := by
  simp [hostTarget, Config.windowBytes, AccessSize.bytes]

theorem windowSlot_cmd {off : Nat} (h : windowSlot off = .cmd) : off = 0 := by
  unfold windowSlot at h
  split at h <;> first | rfl | cases h

/-- Everything a step that answers a next state can do; `u` is the state with the access taken off `pending`. -/
inductive StepCase (s : State) : State → Prop where
  /-- Nothing is pending. -/
  | idle (h : s.pending = []) : StepCase s s
  /-- A command runs. -/
  | command (w : Word) (rest : List HostAccess) (i : Instr) (t : State)
      (h : s.pending = .write s.platform.aesBase .word w :: rest) (hd : decode w = .ok i)
      (he : exec i { s with pending := rest } = .next t) : StepCase s t
  /-- An illegal command word. -/
  | illegal (w : Word) (rest : List HostAccess) (e : Reject)
      (h : s.pending = .write s.platform.aesBase .word w :: rest) (hd : decode w = .error e) :
      StepCase s (State.raise .invalidCommand { s with pending := rest })
  /-- A write of `STATUS` or of a reserved slot. -/
  | ignored (addr w : Word) (rest : List HostAccess) (h : s.pending = .write addr .word w :: rest)
      (ha : addr ≠ s.platform.aesBase) : StepCase s { s with pending := rest }
  /-- A write of a descriptor register. -/
  | desc (addr w : Word) (rest : List HostAccess) (r : DescReg) (h : s.pending = .write addr .word w :: rest)
      (ha : hostTarget s.platform addr .word = .slot (addr.toNat - s.platform.aesBase.toNat))
      (hr : windowSlot (addr.toNat - s.platform.aesBase.toNat) = .desc r) :
      StepCase s (State.setDesc r w { s with pending := rest })
  /-- A host writes a byte of caller memory. -/
  | byte (addr v : Word) (rest : List HostAccess) (h : s.pending = .write addr .byte v :: rest) :
      StepCase s { s with pending := rest, mem := s.mem.setByte addr.toNat (v.setWidth 8) }
  /-- A host reads the window or a byte of caller memory. -/
  | read (addr : Word) (size : AccessSize) (v : Word) (rest : List HostAccess) (h : s.pending = .read addr size :: rest) :
      StepCase s (State.answer v { s with pending := rest })
  /-- The reset event. -/
  | reset (rest : List HostAccess) (h : s.pending = .reset :: rest) :
      StepCase s (State.resetBlock { s with pending := rest })
  /-- The end of a low-power mode. -/
  | wake (rest : List HostAccess) (h : s.pending = .lowPowerExit :: rest) :
      StepCase s (State.lowPowerExit { s with pending := rest })

theorem step_cases {s t : State} (h : step s = .next t) : StepCase s t := by
  unfold step at h
  split at h
  · injection h with h
    subst h
    exact .idle ‹_›
  · rename_i a rest hp
    cases a with
    | reset =>
      injection h with h
      subst h
      exact .reset rest hp
    | lowPowerExit =>
      injection h with h
      subst h
      exact .wake rest hp
    | read addr size =>
      simp only [perform, hostRead] at h
      split at h <;> first | (cases h; done) | (injection h with h; subst h; exact .read addr size _ rest hp)
    | write addr size v =>
      simp only [perform, hostWrite] at h
      split at h
      · rename_i off ht
        obtain ⟨rfl, h1, h2, h3, rfl⟩ := hostTarget_slot ht
        unfold windowWrite at h
        split at h
        · rename_i hs
          have hbase : addr = s.platform.aesBase := by
            have := windowSlot_cmd hs
            apply BitVec.eq_of_toNat_eq
            omega
          subst hbase
          unfold issue at h
          split at h
          · exact .command v rest _ t hp ‹_› h
          · injection h with h
            subst h
            exact .illegal v rest _ hp ‹_›
        · rename_i hs
          injection h with h
          subst h
          refine .ignored addr v rest hp fun hb => ?_
          subst hb
          simp [windowSlot] at hs
        · rename_i hs
          injection h with h
          subst h
          refine .ignored addr v rest hp fun hb => ?_
          subst hb
          simp [windowSlot] at hs
        · rename_i r hs
          injection h with h
          subst h
          exact .desc addr v rest r hp ht hs
      · rename_i ht
        have := hostTarget_memoryByte ht
        subst this
        injection h with h
        subst h
        exact .byte addr v rest hp
      · cases h
      · cases h

end Sys2Proof.Machine
end

