-- ==== Sys2Proof/Tests/Slice0.lean ====
section
/-! SUPPORT. Small tests, their expected values from 95_test_vectors.md (the vector is named), and a witness for every
obligation that has hypotheses. -/

namespace Sys2Proof.Tests

open Sys2Proof.Machine

/-! ### Helpers -/

/-- The `n` bytes of a hexadecimal string, first digit pair first. -/
def hexBytes (n v : Nat) : List Byte :=
  (List.range n).map fun i => BitVec.ofNat 8 (v / 256 ^ (n - 1 - i))

/-- A block from 32 hexadecimal digits. -/
def hexBlock (v : Nat) : Block :=
  ⟨hexBytes 16 v, by simp [hexBytes]⟩

/-- A single-block function given by some of its values. -/
def cipherOf : List (Block × Block) → Block → Block
  | [], _ => Block.zero
  | (x, y) :: rest, b => if b = x then y else cipherOf rest b

/-- `setup(K128)` of 95_test_vectors.md, with `LEN` = 16. -/
def setup : State :=
  { State.reset with
    orch := { Orch.reset with
      locked := true, owner := 1#8, gen := 1#8
      ctx := ⟨true, .k128, hexBytes 16 0x000102030405060708090A0B0C0D0E0F⟩
      desc := ⟨128#32, 16#32, 0x100#32, 0x1000#32, 0x2000#32, 16#32, 0x200#32, 0x3000#32⟩ } }

/-- `macready`: `setup` with the MacEngine in Ready. -/
def macReady : State :=
  { setup with orch := { setup.orch with macReady := true } }

/-- A state with other descriptor values. -/
def withDesc (s : State) (f : Descriptor → Descriptor) : State :=
  { s with orch := { s.orch with desc := f s.orch.desc } }

/-- `STATUS` after a step, as a number. -/
def statusOf : Result → Option Nat
  | .next t => some t.orch.status.toNat
  | .fault _ => none
  | .refused _ => none

/-! ### Syntax and decoding (95_test_vectors.md section 2) -/

theorem test_wellFormed_refuses_token_256 : (Instr.ecbEnc 256).wellFormed = false := by decide

theorem test_wellFormed_accepts_token_255 : (Instr.ecbEnc 255).wellFormed = true := by decide

theorem test_decode_acquire : decode 0x00000000#32 = .ok (.acquire 0) := by rfl
theorem test_decode_release : decode 0x00010010#32 = .ok (.release 1) := by rfl
theorem test_decode_keyInit : decode 0x00010001#32 = .ok (.keyInit 1) := by rfl
theorem test_decode_ecbEnc : decode 0x00FF0002#32 = .ok (.ecbEnc 255) := by rfl
theorem test_decode_ecbDec : decode 0x00010012#32 = .ok (.ecbDec 1) := by rfl
theorem test_decode_cbcEnc : decode 0x00010003#32 = .ok (.cbcEnc 1) := by rfl
theorem test_decode_cbcDec : decode 0x00010013#32 = .ok (.cbcDec 1) := by rfl
theorem test_decode_ctrEnc : decode 0x00010004#32 = .ok (.ctrEnc false 1) := by rfl
theorem test_decode_ctrEnc_init : decode 0x00010104#32 = .ok (.ctrEnc true 1) := by rfl
theorem test_decode_ctrDec : decode 0x00010014#32 = .ok (.ctrDec false 1) := by rfl
theorem test_decode_ctrDec_init : decode 0x00AB0114#32 = .ok (.ctrDec true 171) := by rfl
theorem test_decode_macTag : decode 0x00010005#32 = .ok (.macTag false 1) := by rfl
theorem test_decode_macTag_seed : decode 0x00010105#32 = .ok (.macTag true 1) := by rfl
theorem test_decode_macLoadKey : decode 0x00010025#32 = .ok (.macLoadKey 1) := by rfl

/-- V95: bit 3 set. -/
theorem test_decode_rejects_reserved_bit : decode 0x0001000A#32 = .error .reservedBitSet := by rfl
/-- V95: MODE = 7. -/
theorem test_decode_rejects_mode_7 : decode 0x00010007#32 = .error .unassignedMode := by rfl
/-- V95: MAC with OP = 1. -/
theorem test_decode_rejects_mac_op_1 : decode 0x00010015#32 = .error .unassignedPair := by rfl
/-- V95: MAC_LOAD_KEY with FLAG = 1. -/
theorem test_decode_rejects_misplaced_flag : decode 0x00010125#32 = .error .misplacedFlag := by rfl

/-! ### Lock and key (95_test_vectors.md section 3) -/

/-- V80, as the first command after reset. -/
theorem test_acquire_after_reset : statusOf (step (State.reset.withFetchWord 32 0x00000000)) = some 0x00010100 := by
  decide
/-- V89: the engine is held. -/
theorem test_acquire_busy : statusOf (exec (.acquire 0) setup) = some 0x00010331 := by decide
/-- V92: `GEN` goes from 255 to 1. -/
theorem test_token_wraps : [nextToken 254#8, nextToken 255#8] = [255#8, 1#8] := by decide
/-- V85. -/
theorem test_release : statusOf (exec (.release 1) macReady) = some 0x00000000 := by decide
/-- V86. -/
theorem test_release_free : statusOf (exec (.release 1) State.reset) = some 0x00000061 := by decide
/-- V82-192: class 1. -/
theorem test_keyInit_192 :
    statusOf (exec (.keyInit 1) (withDesc setup fun d => { d with keyBits := 192#32, keyLen := 24#32 })) =
      some 0x00010B00 := by decide
/-- V83 (128, 24), from a valid 128-bit context. -/
theorem test_keyInit_bad_length :
    statusOf (exec (.keyInit 1) (withDesc setup fun d => { d with keyLen := 24#32 })) = some 0x00010311 := by decide

/-! ### Check order and regions (sections 4 to 8) -/

/-- V95: MODE = 6, through a write of `CMD`. -/
theorem test_illegal_word : statusOf (step (setup.withFetchWord 32 0x00010006)) = some 0x00010351 := by decide
/-- V90: a wrong token. -/
theorem test_ecbEnc_wrong_token : statusOf (exec (.ecbEnc 2) setup) = some 0x00010331 := by decide
/-- V19: adjacent buffers are no overlap. -/
theorem test_ecbEnc_adjacent :
    statusOf (exec (.ecbEnc 1) (withDesc setup fun d => { d with outAddr := 0x1010#32 })) = some 0x00010300 := by decide
/-- V18: `OUT_ADDR` = `IN_ADDR` - 15. -/
theorem test_ecbDec_alias :
    statusOf (exec (.ecbDec 1) (withDesc setup fun d => { d with outAddr := 0xFF1#32 })) = some 0x00010341 := by decide
/-- V99: `AccessFault` before `BufferAliasing`. -/
theorem test_ecbDec_access_first :
    statusOf (exec (.ecbDec 1)
      (withDesc setup fun d => { d with inAddr := 0xFFFFFFF0#32, outAddr := 0xFFFFFFF0#32, len := 32#32 })) =
      some 0x00010391 := by decide
/-- V25: the IV region is checked even when `LEN` = 0. -/
theorem test_cbcEnc_iv_checked :
    statusOf (exec (.cbcEnc 1) (withDesc setup fun d => { d with len := 0#32, ivAddr := 0xFFFFFFF8#32 })) =
      some 0x00010391 := by decide
/-- V23: a read over a read is allowed. -/
theorem test_cbcEnc_in_over_iv :
    statusOf (exec (.cbcEnc 1) (withDesc setup fun d => { d with inAddr := 0x200#32 })) = some 0x00010300 := by decide
/-- V27. -/
theorem test_cbcDec_length :
    statusOf (exec (.cbcDec 1) (withDesc setup fun d => { d with len := 8#32 })) = some 0x00010321 := by decide
/-- V52: the IV is read and the record written. -/
theorem test_ctrEnc_iv_over_record :
    statusOf (exec (.ctrEnc true 1) (withDesc setup fun d => { d with ivAddr := 0x3010#32, len := 4#32 })) =
      some 0x00010341 := by decide
/-- V53: without INIT the IV is no region. -/
theorem test_ctrDec_iv_no_region :
    statusOf (exec (.ctrDec false 1) (withDesc setup fun d => { d with ivAddr := 0x3010#32, len := 4#32 })) =
      some 0x00010300 := by decide
/-- V49: the stored offset is 16. -/
theorem test_ctrDec_bad_offset :
    statusOf (exec (.ctrDec false 1) { setup with mem := [(0x3020, 0x10#8)] }) = some 0x000103A1 := by decide
/-- V61. -/
theorem test_macTag_not_ready : statusOf (exec (.macTag false 1) setup) = some 0x00010381 := by decide
/-- V65 and V68: `TAG` may overlap `DATA`, the seed may not when n > 1. -/
theorem test_macTag_overlaps :
    [statusOf (exec (.macTag false 1) (withDesc macReady fun d => { d with outAddr := 0x1000#32, len := 32#32 })),
      statusOf (exec (.macTag true 1) (withDesc macReady fun d => { d with ivAddr := 0x1010#32, len := 32#32 }))] =
      [some 0x00010700, some 0x00010741] := by decide
/-- V60. -/
theorem test_macLoadKey : statusOf (exec (.macLoadKey 1) setup) = some 0x00010700 := by decide
/-- V71. -/
theorem test_macLoadKey_length :
    statusOf (exec (.macLoadKey 1) (withDesc setup fun d => { d with len := 32#32 })) = some 0x00010321 := by decide

/-! ### Data paths, over single-block values the vectors give -/

/-- V22: the second block is chained on the first ciphertext (its cipher input is `P_1 xor C_0`, by hand). -/
theorem test_cbcEncrypt :
    cbcEncrypt (cipherOf
      [(hexBlock 0x6BC1BEE22E409F96E93D7E117393172A, hexBlock 0x3AD77BB40D7A3660A89ECAF32466EF97),
        (hexBlock 0x94FAF1E313799AFC3629A55F61C961C6, hexBlock 0xB148C17F309EE692287AE57CF12ADD49)])
      Block.zero
      [hexBlock 0x6BC1BEE22E409F96E93D7E117393172A, hexBlock 0xAE2D8A571E03AC9C9EB76FAC45AF8E51] =
    [hexBlock 0x3AD77BB40D7A3660A89ECAF32466EF97, hexBlock 0xB148C17F309EE692287AE57CF12ADD49] := by decide

/-- V21: the chaining value is the ciphertext block just consumed (the cipher outputs are `P_0 xor IV` and
`P_1 xor X_0`, by hand). -/
theorem test_cbcDecrypt :
    cbcDecrypt (cipherOf
      [(hexBlock 0x7649ABAC8119B246CEE98E9B12E9197D, hexBlock 0x6BC0BCE12A459991E134741A7F9E1925),
        (hexBlock 0x5086CB9B507219EE95DB113A917678B2, hexBlock 0xD86421FB9F1A1EDA505EE1375746972C)])
      (hexBlock 0x000102030405060708090A0B0C0D0E0F)
      [hexBlock 0x7649ABAC8119B246CEE98E9B12E9197D, hexBlock 0x5086CB9B507219EE95DB113A917678B2] =
    [hexBlock 0x6BC1BEE22E409F96E93D7E117393172A, hexBlock 0xAE2D8A571E03AC9C9EB76FAC45AF8E51] := by decide

/-- V73: two blocks, zero seed; the scratch is the first CBC block. -/
theorem test_macChain :
    macChain (cipherOf
      [(hexBlock 0x6BC1BEE22E409F96E93D7E117393172A, hexBlock 0x3AD77BB40D7A3660A89ECAF32466EF97),
        (hexBlock 0x94FAF1E313799AFC3629A55F61C961C6, hexBlock 0xB148C17F309EE692287AE57CF12ADD49)])
      Block.zero
      [hexBlock 0x6BC1BEE22E409F96E93D7E117393172A, hexBlock 0xAE2D8A571E03AC9C9EB76FAC45AF8E51] =
    ([hexBlock 0x3AD77BB40D7A3660A89ECAF32466EF97], hexBlock 0xB148C17F309EE692287AE57CF12ADD49) := by decide

/-- V65: the tag is written last, over the scratch block. -/
theorem test_commit_order :
    (Memory.commit [] [(0x1000, hexBytes 16 0x3AD77BB40D7A3660A89ECAF32466EF97),
      (0x1000, hexBytes 16 0xB148C17F309EE692287AE57CF12ADD49)]).readBytes 0x1000 16 =
    hexBytes 16 0xB148C17F309EE692287AE57CF12ADD49 := by decide

/-- The keystream blocks of V45 and V47. -/
def ctrCipher : Block → Block :=
  cipherOf
    [(hexBlock 0xF0F1F2F3F4F5F6F7F8F9FAFBFCFDFEFF, hexBlock 0xEC8CDF7398607CB0F2D21675EA9EA1E4),
      (hexBlock 0xF0F1F2F3F4F5F6F7F8F9FAFBFCFDFF00, hexBlock 0x362B7C3C6773516318A077D7FC5073AE)]

/-- V45: 15 bytes from INIT. -/
theorem test_ctrProcess_partial :
    ctrProcess ctrCipher ⟨hexBlock 0xF0F1F2F3F4F5F6F7F8F9FAFBFCFDFEFF, Block.zero, 0⟩
      (hexBytes 15 0x6BC1BEE22E409F96E93D7E11739317) =
    (hexBytes 15 0x874D6191B620E3261BEF6864990DB6,
      ⟨hexBlock 0xF0F1F2F3F4F5F6F7F8F9FAFBFCFDFF00, hexBlock 0xEC8CDF7398607CB0F2D21675EA9EA1E4, 15⟩) := by decide

/-- V46 and V47 in one: two bytes from V45's record, across the block boundary. -/
theorem test_ctrProcess_boundary :
    ctrProcess ctrCipher
      ⟨hexBlock 0xF0F1F2F3F4F5F6F7F8F9FAFBFCFDFF00, hexBlock 0xEC8CDF7398607CB0F2D21675EA9EA1E4, 15⟩
      (hexBytes 2 0x2AAE) =
    (hexBytes 2 0xCE98,
      ⟨hexBlock 0xF0F1F2F3F4F5F6F7F8F9FAFBFCFDFF01, hexBlock 0x362B7C3C6773516318A077D7FC5073AE, 1⟩) := by decide

/-- V43 and V44: the counter wraps over all 16 bytes, and carries over byte 15. -/
theorem test_counter_increment :
    [(hexBlock 0xFFFFFFFFFFFFFFFFFFFFFFFFFFFFFFFF).increment, (hexBlock 0xF0F1F2F3F4F5F6F7F8F9FAFBFCFDFEFF).increment] =
    [Block.zero, hexBlock 0xF0F1F2F3F4F5F6F7F8F9FAFBFCFDFF00] := by decide

/-! ### Memory and the window -/

/-- Writing what an unlisted address reads as removes the entry. -/
theorem test_setByte_canonical :
    [Memory.setByte [(1, 5#8), (9, 7#8)] 4 6#8, Memory.setByte [(1, 5#8), (9, 7#8)] 9 0#8] =
    [[(1, 5#8), (4, 6#8), (9, 7#8)], [(1, 5#8)]] := by decide

/-- P1 step 5: `WR KEY_ADDR` is a word write at offset 0x18. -/
theorem test_window_keyAddr :
    (match hostWrite 0x00010018#32 .word 0x100#32 State.reset with
      | .next t => t.orch.desc.get .keyAddr
      | .fault _ => 0#32
      | .refused _ => 0#32) = 0x100#32 := by decide

/-- A read of `STATUS` returns the word of V82-128. -/
theorem test_window_status : windowRead 0x04 setup = 0x00010300#32 := by decide

/-! ### Witnesses: for every obligation with hypotheses, states and operands that meet all of them -/

/-- No check stops a command whose first error is none. -/
theorem clearOf {i : Instr} {s : State} (h : firstError (checksOf s i) = none) : Clear i s :=
  clear_iff.2 h

/-- A state with one more access to come. -/
def before (a : HostAccess) (s : State) : State :=
  { s with pending := a :: s.pending }

/-- A write of a word to `CMD` to come. -/
def issuing (w : Word) (s : State) : State :=
  before (.write s.platform.aesBase .word w) s

theorem writesCmd_issuing (w : Word) (s : State) : WritesCmd (issuing w s) w :=
  ⟨s.pending, rfl⟩

theorem not_resets_issuing (w : Word) (s : State) : ¬ Resets (issuing w s) := by
  rintro ⟨_, h⟩
  cases h

theorem not_wakes_issuing (w : Word) (s : State) : ¬ Wakes (issuing w s) := by
  rintro ⟨_, h⟩
  cases h

theorem setup_legal : setup.Legal :=
  ⟨⟨by decide, by decide, by decide, by decide, by decide, by decide⟩, ⟨by decide, by decide⟩⟩

theorem witness_DecodeInvertsEncode : (Instr.ctrEnc true 255).wellFormed = true := by decide

theorem witness_EncodeInvertsDecode : decode 0x00FF0104#32 = .ok (.ctrEnc true 255) := by rfl

theorem witness_LegalWordSelectsExactlyOneRow :
    decode 0x00FF0104#32 = .ok (.ctrEnc true 255) ∧ decode 0x00000106#32 = .error .unassignedMode := ⟨by rfl, by rfl⟩

/-- One word for each of R77's cases, and a legal one. -/
theorem witness_IllegalWordRaisesInvalidCommand :
    (∀ w ∈ [0x0001000A#32, 0x00010007#32, 0x00010015#32, 0x00010125#32],
      WritesCmd (issuing w setup) w ∧ IllegalWord w) ∧
    (WritesCmd (issuing 0x00010025#32 setup) 0x00010025#32 ∧ ¬ IllegalWord 0x00010025#32) := by
  refine ⟨fun w hw => ⟨writesCmd_issuing w _, ?_⟩, writesCmd_issuing _ _, by unfold IllegalWord; decide⟩
  simp only [List.mem_cons, List.not_mem_nil, or_false] at hw
  unfold IllegalWord
  rcases hw with rfl | rfl | rfl | rfl <;> decide

theorem witness_CmdWriteRunsTheDecodedCommand :
    WritesCmd (issuing 0x00010002#32 setup) 0x00010002#32 ∧ decode 0x00010002#32 = .ok (.ecbEnc 1) ∧
    decodeTableWord 32 0x00010002 = some (.ecbEnc 1) ∧ State.reset.pending = [] :=
  ⟨writesCmd_issuing _ _, by rfl, by rfl, by rfl⟩

theorem witness_ResetGivesTheResetValues : Resets (before .reset setup) := ⟨[], rfl⟩

theorem witness_StepKeepsLegalStates :
    (issuing 0x00010010#32 setup).Legal ∧ ¬ Wakes (issuing 0x00010010#32 setup) ∧
    ∃ t, step (issuing 0x00010010#32 setup) = .next t :=
  ⟨⟨setup_legal.orch, setup_legal.mem⟩, not_wakes_issuing _ _, _, rfl⟩

theorem witness_StepKeepsMemoryLegal :
    (before .lowPowerExit setup).mem.Legal ∧ (∃ t, step (before .lowPowerExit setup) = .next t) ∧
    (issuing 0x00010002#32 setup).mem.Legal ∧ ∃ t, step (issuing 0x00010002#32 setup) = .next t :=
  ⟨setup_legal.mem, ⟨_, rfl⟩, setup_legal.mem, _,
    exec_of_clear (i := .ecbEnc 1) (s := setup) (clearOf (by decide))⟩

theorem witness_LowPowerExitLeavesTheBlockUnknown :
    ∃ s t u : State, Wakes s ∧ step s = .next t ∧ Resets t ∧ s.mem.Legal ∧ step t = .next u :=
  ⟨before .lowPowerExit (before .reset setup), _, _, ⟨_, rfl⟩, rfl, ⟨_, rfl⟩, setup_legal.mem, rfl⟩

/-- A command whose first error is `e`, as the statements ask for it. -/
theorem failsWith {i : Instr} {s : State} {e : Err} (h : firstError (checksOf s i) = some e) :
    ∃ c, FirstFailure i s c ∧ c.err = e :=
  firstFailure_of_error h

/-- An illegal word; each check of R79 as the first that fails; and none. -/
theorem witness_CommandsFollowTheCheckOrder :
    (WritesCmd (issuing 0x00000006#32 setup) 0x00000006#32 ∧ IllegalWord 0x00000006#32) ∧
    (∃ c, FirstFailure (.acquire 0) setup c ∧ c.err = .engineBusy) ∧
    (∃ c, FirstFailure (.keyInit 0) State.reset c ∧ c.err = .notOwner) ∧
    (∃ c, FirstFailure (.ecbEnc 2) setup c ∧ c.err = .engineBusy) ∧
    (∃ c, FirstFailure (.ecbEnc 1) { setup with orch := { setup.orch with ctx := AesContext.none } } c ∧
      c.err = .keyNotLoaded) ∧
    (∃ c, FirstFailure (.macTag false 1) setup c ∧ c.err = .macKeyNotLoaded) ∧
    (∃ c, FirstFailure (.keyInit 1) (withDesc setup fun d => { d with keyLen := 24#32 }) c ∧
      c.err = .invalidKeyLength) ∧
    (∃ c, FirstFailure (.ecbEnc 1) (withDesc setup fun d => { d with len := 17#32 }) c ∧ c.err = .invalidLength) ∧
    (∃ c, FirstFailure (.ecbEnc 1) (withDesc setup fun d => { d with inAddr := 0xFFFFFFF8#32 }) c ∧
      c.err = .accessFault) ∧
    (∃ c, FirstFailure (.ecbEnc 1) (withDesc setup fun d => { d with outAddr := 0x100F#32 }) c ∧
      c.err = .bufferAliasing) ∧
    (∃ c, FirstFailure (.ctrDec false 1) { setup with mem := [(0x3020, 0x10#8)] } c ∧ c.err = .invalidStreamState) ∧
    (WritesCmd (issuing 0x00010002#32 setup) 0x00010002#32 ∧ ¬ IllegalWord 0x00010002#32 ∧
      decode 0x00010002#32 = .ok (.ecbEnc 1) ∧ Clear (.ecbEnc 1) setup) := by
  refine ⟨⟨writesCmd_issuing _ _, by unfold IllegalWord; decide⟩, failsWith (by decide), failsWith (by decide),
    failsWith (by decide), failsWith (by decide), failsWith (by decide), failsWith (by decide), failsWith (by decide),
    failsWith (by decide), failsWith (by decide), failsWith (by decide),
    ⟨writesCmd_issuing _ _, by unfold IllegalWord; decide, by rfl, clearOf (by decide)⟩⟩

theorem witness_FailedCommandWritesOnlyFailAndErr :
    ∃ t, exec (.ecbEnc 2) setup = .next t ∧ t.orch.fail = true := ⟨_, rfl, rfl⟩

theorem witness_CommandLeavesDescriptorsAlone : ∃ t, exec (.keyInit 1) setup = .next t := ⟨_, rfl⟩

theorem witness_RetryFailsIdentically : ∃ t, exec (.acquire 0) setup = .next t ∧ t.orch.fail = true := ⟨_, rfl, rfl⟩

/-- The three clauses: the right token, a free engine, a wrong token. -/
theorem witness_OnlyTheTokenHolderSucceeds :
    (∃ t, (Instr.release 1).isAcquire = false ∧ exec (.release 1) setup = .next t ∧ t.orch.fail = false) ∧
    (∃ t, exec (.release 0) State.reset = .next t ∧ State.reset.orch.locked = false) ∧
    (∃ t, exec (.release 2) setup = .next t ∧ setup.orch.locked = true ∧
      (Instr.release 2).token ≠ setup.orch.owner.toNat) :=
  ⟨⟨_, rfl, rfl, rfl⟩, ⟨_, rfl, rfl⟩, ⟨_, rfl, rfl, by decide⟩⟩

/-- Steps that change the lock and `GEN`, `CTX`, and `MAC_READY`. -/
theorem witness_EngineStateChangesOnlyByItsCommands :
    (∃ t, step (issuing 0#32 State.reset) = .next t ∧ ¬ Resets (issuing 0#32 State.reset) ∧
      ¬ Wakes (issuing 0#32 State.reset) ∧ t.orch.locked ≠ State.reset.orch.locked ∧
      t.orch.gen ≠ State.reset.orch.gen) ∧
    (∃ t, step (issuing 0x00010001#32 setup) = .next t ∧ t.orch.ctx ≠ setup.orch.ctx) ∧
    (∃ t, step (issuing 0x00010025#32 setup) = .next t ∧ t.orch.macReady ≠ setup.orch.macReady) := by
  refine ⟨⟨_, rfl, not_resets_issuing _ _, not_wakes_issuing _ _, by decide, by decide⟩, ⟨_, rfl, by decide⟩,
    ⟨_, exec_of_clear (i := .macLoadKey 1) (s := setup) (clearOf (by decide)), by decide⟩⟩

/-- Steps that change the result, and a descriptor register. -/
theorem witness_ResultAndDescriptorsChangeOnlyByWindowWrites :
    (∃ t, step (issuing 0#32 setup) = .next t ∧ ¬ Resets (issuing 0#32 setup) ∧ ¬ Wakes (issuing 0#32 setup) ∧
      t.orch.err ≠ setup.orch.err) ∧
    (∃ t, step (before (.write 0x00010024#32 .word 1#32) setup) = .next t ∧ t.orch.desc ≠ setup.orch.desc) :=
  ⟨⟨_, rfl, not_resets_issuing _ _, not_wakes_issuing _ _, by decide⟩, ⟨_, rfl, by decide⟩⟩

theorem witness_OnlyReleaseOrResetFreesTheEngine :
    ∃ t, (issuing 0x00010010#32 setup).orch.locked = true ∧ step (issuing 0x00010010#32 setup) = .next t ∧
      t.orch.locked = false := ⟨_, rfl, rfl, rfl⟩

theorem witness_KeyIsNeverReadable :
    ∃ s s' t t' : State,
      s' = { s with orch := { s.orch with ctx := { s.orch.ctx with key := hexBytes 16 5 } } } ∧ s' ≠ s ∧ ¬ Wakes s ∧
      step s = .next t ∧ step s' = .next t' :=
  ⟨issuing 0x00010002#32 setup, _, _, _, rfl, by decide, not_wakes_issuing _ _,
    exec_of_clear (i := .ecbEnc 1) (s := setup) (clearOf (by decide)),
    exec_of_clear (i := .ecbEnc 1)
      (s := { setup with orch := { setup.orch with ctx := { setup.orch.ctx with key := hexBytes 16 5 } } })
      (clearOf (by decide))⟩

/-- The first and the last byte of the window. -/
theorem witness_CommandNeverReachesTheWindow :
    ∀ a ∈ [0x10000, 0x1003F], ∃ (s t : State) (r : Region), r ∈ (Instr.ecbEnc 1).regions s.orch.desc ∧ r.base ≤ a ∧
      a < r.base + r.size ∧ s.platform.aesBase.toNat ≤ a ∧ a < s.platform.aesBase.toNat + 64 ∧
      exec (.ecbEnc 1) s = .next t := by
  intro a ha
  simp only [List.mem_cons, List.not_mem_nil, or_false] at ha
  rcases ha with rfl | rfl
  · exact ⟨withDesc setup fun d => { d with outAddr := 0xFFF1#32 }, _, ⟨.output, 0xFFF1, 16, .w⟩, by decide, by decide,
      by decide, by decide, by decide, rfl⟩
  · exact ⟨withDesc setup fun d => { d with outAddr := 0x1003F#32 }, _, ⟨.output, 0x1003F, 16, .w⟩, by decide,
      by decide, by decide, by decide, by decide, rfl⟩

theorem witness_DescriptorReadsAsLastWritten :
    ∀ r ∈ [DescReg.keyBits, DescReg.streamAddr], ∃ s : State, s.platform.aesBase.toNat + 64 ≤ 2 ^ 32 ∧
      s.pending = [.write (s.platform.windowAddr r.offset) .word 0xFFFFFFFF#32,
        .read (s.platform.windowAddr r.offset) .word] :=
  fun r _ => ⟨{ setup with pending := [.write (setup.platform.windowAddr r.offset) .word 0xFFFFFFFF#32,
    .read (setup.platform.windowAddr r.offset) .word] }, (by decide : setup.platform.aesBase.toNat + 64 ≤ 2 ^ 32), rfl⟩

/-- A read of `CMD` and of the last slot, a write of `STATUS`, with the window at the end of the address space. -/
theorem witness_CmdStatusAndReservedSlots :
    ∃ p : Platform, p.aesBase.toNat + 64 ≤ 2 ^ 32 ∧
      (∀ off ∈ [0x00, 0x3C], off ∈ [0x00, 0x04, 0x08, 0x0C, 0x30, 0x34, 0x38, 0x3C] ∧
        ∃ s : State, s.platform = p ∧ s.pending = [.read (p.windowAddr off) .word]) ∧
      ∃ s : State, s.platform = p ∧ s.pending = [.write (p.windowAddr 0x04) .word 1#32] :=
  ⟨⟨0xFFFFFFC0#32, []⟩, by decide,
    fun off h => ⟨by revert off; decide,
      { setup with platform := ⟨0xFFFFFFC0#32, []⟩, pending := [.read (Platform.windowAddr ⟨0xFFFFFFC0#32, []⟩ off) .word] },
      rfl, rfl⟩,
    { setup with
      platform := ⟨0xFFFFFFC0#32, []⟩
      pending := [.write (Platform.windowAddr ⟨0xFFFFFFC0#32, []⟩ 0x04) .word 1#32] }, rfl, rfl⟩

/-- A byte at the last address of the window, a misaligned word, a word that straddles its start. -/
theorem witness_NarrowOrMisalignedWindowAccessIsRefused :
    ∀ x ∈ [(0x1003F#32, AccessSize.byte), (0x10002#32, AccessSize.word), (0xFFFD#32, AccessSize.word)],
      setup.platform.aesBase.toNat < x.1.toNat + x.2.bytes ∧ x.1.toNat < setup.platform.aesBase.toNat + 64 ∧
      (x.2 ≠ .word ∨ x.1.toNat < setup.platform.aesBase.toNat ∨ ¬ 4 ∣ x.1.toNat - setup.platform.aesBase.toNat) := by
  decide

/-- The last byte before the window and the first after it. -/
theorem witness_HostByteWriteIsSeen :
    ∀ addr ∈ [0xFFFF#32, 0x10040#32], ∃ s : State, s.mem.wf ∧
      (addr.toNat < s.platform.aesBase.toNat ∨ s.platform.aesBase.toNat + 64 ≤ addr.toNat) ∧
      s.pending = [.write addr .byte 0xAB#32, .read addr .byte] := by
  intro addr h
  refine ⟨{ setup with pending := [.write addr .byte 0xAB#32, .read addr .byte] }, setup_legal.mem.wf, ?_, rfl⟩
  simp only [List.mem_cons, List.not_mem_nil, or_false] at h
  rcases h with rfl | rfl <;> decide

/-- `GEN` = 255 on a free engine, and a held one. -/
theorem witness_AcquireGrantsTheNextToken :
    (∃ (s : State) (n : BitVec 8), n = (if s.orch.gen = 255#8 then 1#8 else s.orch.gen + 1#8) ∧
      s.orch.gen = 255#8 ∧ s.orch.locked = false) ∧ setup.orch.locked = true :=
  ⟨⟨{ State.reset with orch := { Orch.reset with gen := 255#8 } }, _, rfl, rfl, rfl⟩, rfl⟩

theorem witness_ReleaseFreesTheEngine :
    (setup.orch.locked = true ∧ 1 = setup.orch.owner.toNat) ∧ State.reset.orch.locked = false ∧
    (setup.orch.locked = true ∧ 2 ≠ setup.orch.owner.toNat) := by decide

theorem witness_KeyInitLoadsTheKey :
    Clear (.keyInit 1) setup ∧
    ∃ c, FirstFailure (.keyInit 1) (withDesc setup fun d => { d with keyBits := 64#32, keyLen := 8#32 }) c :=
  ⟨clearOf (by decide), (failsWith (e := .invalidKeyLength) (by decide)).imp fun _ h => h.1⟩

theorem witness_EcbEncEncryptsEachBlock :
    setup.mem.wf ∧ Clear (.ecbEnc 1) setup ∧ ∃ c, FirstFailure (.ecbEnc 2) setup c :=
  ⟨by decide, clearOf (by decide), (failsWith (e := .engineBusy) (by decide)).imp fun _ h => h.1⟩

theorem witness_EcbDecDecryptsEachBlock :
    setup.mem.wf ∧ Clear (.ecbDec 1) setup ∧ ∃ c, FirstFailure (.ecbDec 2) setup c :=
  ⟨by decide, clearOf (by decide), (failsWith (e := .engineBusy) (by decide)).imp fun _ h => h.1⟩

theorem witness_CbcEncChainsCiphertext :
    setup.mem.wf ∧ Clear (.cbcEnc 1) (withDesc setup fun d => { d with len := 32#32 }) ∧
    ∃ c, FirstFailure (.cbcEnc 2) setup c :=
  ⟨by decide, clearOf (by decide), (failsWith (e := .engineBusy) (by decide)).imp fun _ h => h.1⟩

theorem witness_CbcDecChainsCiphertext :
    setup.mem.wf ∧ Clear (.cbcDec 1) (withDesc setup fun d => { d with len := 32#32 }) ∧
    ∃ c, FirstFailure (.cbcDec 2) setup c :=
  ⟨by decide, clearOf (by decide), (failsWith (e := .engineBusy) (by decide)).imp fun _ h => h.1⟩

/-- After a command on `setup` that writes one region, a decrypting state: what stood at `OUT_ADDR` is the input. -/
def decrypting (t : State) : State :=
  withDesc t fun d => { d with inAddr := 0x2000#32, outAddr := 0x4000#32 }

theorem witness_EcbRoundTrip :
    ∃ s t u v : State, s.mem.wf ∧ u.mem.wf ∧ exec (.ecbEnc 1) s = .next t ∧ t.orch.fail = false ∧
      u.orch.ctx = t.orch.ctx ∧ u.orch.desc.len = s.orch.desc.len ∧
      u.mem.readBytes u.orch.desc.inBase s.orch.desc.len.toNat =
        t.mem.readBytes s.orch.desc.outBase s.orch.desc.len.toNat ∧
      exec (.ecbDec 1) u = .next v ∧ v.orch.fail = false ∧ s.orch.desc.len = 16#32 :=
  ⟨setup, _, decrypting (setup.complete (writesOf setup (.ecbEnc 1)) setup.orch), _, by decide,
    wf_commit (by decide) _, exec_of_clear (clearOf (by decide)), rfl, rfl, rfl, rfl,
    exec_of_clear (clearOf (by decide)), rfl, rfl⟩

theorem witness_CbcRoundTrip :
    ∃ s t u v : State, s.mem.wf ∧ u.mem.wf ∧ exec (.cbcEnc 1) s = .next t ∧ t.orch.fail = false ∧
      u.orch.ctx = t.orch.ctx ∧ u.orch.desc.len = s.orch.desc.len ∧
      u.mem.readBytes u.orch.desc.inBase s.orch.desc.len.toNat =
        t.mem.readBytes s.orch.desc.outBase s.orch.desc.len.toNat ∧
      u.mem.readBlock u.orch.desc.ivBase = s.mem.readBlock s.orch.desc.ivBase ∧
      exec (.cbcDec 1) u = .next v ∧ v.orch.fail = false ∧ s.orch.desc.len = 16#32 := by
  refine ⟨setup, _, decrypting (setup.complete (writesOf setup (.cbcEnc 1)) setup.orch), _, by decide,
    wf_commit (by decide) _, exec_of_clear (clearOf (by decide)), rfl, rfl, rfl, rfl, ?_,
    exec_of_clear (clearOf (by decide)), rfl, rfl⟩
  refine readBlock_congr fun i hi => byteAt_writeBytes_outside (by decide) ?_
  have : (decrypting (setup.complete (writesOf setup (.cbcEnc 1)) setup.orch)).orch.desc.ivBase = 0x200 := rfl
  have : setup.orch.desc.outBase = 0x2000 := rfl
  omega

/-- With INIT, either direction, and from a record whose offset is 15. -/
theorem witness_CtrCommandAppliesTheKeystream :
    setup.mem.wf ∧ Clear (.ctrEnc true 1) setup ∧ Clear (.ctrDec true 1) setup ∧
    Clear (.ctrDec false 1) { setup with mem := [(0x3020, 15#8)] } ∧
    ∃ c, FirstFailure (.ctrEnc false 1) { setup with mem := [(0x3020, 16#8)] } c :=
  ⟨by decide, clearOf (by decide), clearOf (by decide), clearOf (by decide),
    (failsWith (e := .invalidStreamState) (by decide)).imp fun _ h => h.1⟩

theorem witness_CounterWrapsModulo128Bits : ∃ b : Block, b.bytes = List.replicate 16 0xFF#8 :=
  ⟨⟨List.replicate 16 0xFF#8, by simp⟩, rfl⟩

/-- Offsets 15 and 16. -/
theorem witness_StoredOffsetAboveFifteenIsRefused :
    Clear (.ctrEnc false 1) { setup with mem := [(0x3020, 15#8)] } ∧
    ∃ s : State, (∀ c : Check, c ≠ .badOffset → ¬ c.fails (.ctrEnc false 1) s) ∧
      15 < (s.mem.byteAt (s.orch.desc.streamBase + 32)).toNat := by
  refine ⟨clearOf (by decide), { setup with mem := [(0x3020, 16#8)] }, fun c hc hf => ?_, by decide⟩
  refine clearOf (i := .ctrEnc false 1) (s := { setup with mem := [(0x3020, 15#8)] }) (by decide) c ?_
  cases c <;> first | exact absurd rfl hc | exact hf

/-- A chunk that passes its checks. -/
theorem chunkOf {s : State} {i : Instr} {init : Bool} (hi : i.isCtr init) (h : firstError (checksOf s i) = none) :
    CtrChunk init i (s.mem.readBytes s.orch.desc.inBase s.orch.desc.len.toNat)
      ((s.complete (writesOf s i) (orchAfter s i)).mem.readBytes s.orch.desc.outBase s.orch.desc.len.toNat) s
      (s.complete (writesOf s i) (orchAfter s i)) :=
  ⟨hi, exec_of_clear (clearOf h), rfl, rfl, rfl⟩

/-- `setup` after an empty first chunk: the record is `IV ++ 0^16 ++ [0]`, here all zero, and the host has written
`LEN` = 16 again. -/
theorem streamed_setup :
    (∃ o t, CtrStreamed true (setup.mem.readBytes 0x1000 16) o setup t) ∧
    ∃ o t, CtrStreamed true (setup.mem.readBytes 0x1000 16) o (withDesc setup fun d => { d with len := 0#32 }) t := by
  refine ⟨⟨_, _, .last true (.ctrEnc true 1) _ _ _ _ (chunkOf ⟨1, .inl rfl⟩ (by decide))⟩, ?_⟩
  exact ⟨_, _, .chunk true (.ctrEnc true 1) [] [] _ _ _ _ setup _ (chunkOf ⟨1, .inl rfl⟩ (by decide)) (by decide) rfl
    (by decide) (.last false (.ctrDec false 1) _ _ _ _ (chunkOf ⟨1, .inr rfl⟩ (by decide)))⟩

/-- One run in one chunk, one in two, over the same bytes; and the first one's output decrypted. -/
theorem witness_CtrChunkingIsInvariant :
    ∃ (p o q q' : List Byte) (s t s' t' s'' t'' : State), s.mem.wf ∧ s'.mem.wf ∧ s''.mem.wf ∧
      s'.orch.ctx = s.orch.ctx ∧ s''.orch.ctx = s.orch.ctx ∧
      s'.mem.readBlock s'.orch.desc.ivBase = s.mem.readBlock s.orch.desc.ivBase ∧
      s''.mem.readBlock s''.orch.desc.ivBase = s.mem.readBlock s.orch.desc.ivBase ∧
      CtrStreamed true p o s t ∧ CtrStreamed true p q s' t' ∧ CtrStreamed true o q' s'' t'' ∧ p.length = 16 := by
  have hw : Memory.wf setup.mem := by decide
  have h1 : CtrStreamed true _ _ setup _ :=
    .last true (.ctrEnc true 1) _ _ _ _ (chunkOf ⟨1, .inl rfl⟩ (by decide))
  obtain ⟨-, q, t', h2⟩ := streamed_setup
  have h3 : CtrStreamed true _ _ (decrypting (setup.complete (writesOf setup (.ctrEnc true 1)) setup.orch)) _ :=
    .last true (.ctrDec true 1) _ _ _ _ (chunkOf ⟨1, .inr rfl⟩ (by decide))
  refine ⟨_, _, q, _, setup, _, withDesc setup fun d => { d with len := 0#32 }, t',
    decrypting (setup.complete (writesOf setup (.ctrEnc true 1)) setup.orch), _, hw, hw, wf_commit hw _, rfl, rfl, rfl,
    ?_, h1, h2, h3, by decide⟩
  refine readBlock_congr fun i hi => ?_
  refine (byteAt_writeBytes_outside (wf_writeBytes hw _ _) ?_).trans (byteAt_writeBytes_outside hw ?_)
  · rintro ⟨h, -⟩
    have h' : 0x3000 ≤ 0x200 + i := h
    omega
  · rintro ⟨h, -⟩
    have h' : 0x2000 ≤ 0x200 + i := h
    omega

theorem witness_ChunkedStreamHasTheClosedForm :
    setup.mem.wf ∧ ∃ p o t, p.length = 16 ∧
      CtrStreamed true p o (withDesc setup fun d => { d with len := 0#32 }) t := by
  obtain ⟨-, o, t, h⟩ := streamed_setup
  exact ⟨by decide, _, o, t, by decide, h⟩

theorem witness_MacLoadKeyEncryptsOneBlock :
    setup.mem.wf ∧ Clear (.macLoadKey 1) setup ∧
    ∃ c, FirstFailure (.macLoadKey 1) (withDesc setup fun d => { d with len := 32#32 }) c :=
  ⟨by decide, clearOf (by decide), (failsWith (e := .invalidLength) (by decide)).imp fun _ h => h.1⟩

/-- One block; two blocks with a seed; two blocks with the tag over the data. -/
theorem witness_MacTagWritesScratchThenTag :
    macReady.mem.wf ∧ Clear (.macTag false 1) macReady ∧
    Clear (.macTag true 1) (withDesc macReady fun d => { d with len := 32#32 }) ∧
    Clear (.macTag false 1) (withDesc macReady fun d => { d with len := 32#32, outAddr := 0x1010#32 }) ∧
    ∃ c, FirstFailure (.macTag false 1) (withDesc macReady fun d => { d with len := 0#32 }) c :=
  ⟨by decide, clearOf (by decide), clearOf (by decide), clearOf (by decide),
    (failsWith (e := .invalidLength) (by decide)).imp fun _ h => h.1⟩

/-- Two blocks, on the same memory. -/
theorem witness_MacTagIsTheLastCbcBlock :
    ∃ (s t v : State), s.mem.wf ∧ 2 = s.orch.desc.len.toNat / 16 ∧ exec (.macTag true 1) s = .next t ∧
      t.orch.fail = false ∧ exec (.cbcEnc 1) s = .next v ∧ v.orch.fail = false ∧
      s.orch.desc.outBase ≥ s.orch.desc.inBase + 16 :=
  ⟨withDesc macReady fun d => { d with len := 32#32 }, _, _, by decide, by decide, exec_of_clear (clearOf (by decide)),
    rfl, exec_of_clear (clearOf (by decide)), rfl, by decide⟩

/-- Two data that differ in the first of two blocks. -/
theorem witness_MacTagSeesEveryBlock :
    ∃ (s t u v : State), s.mem.wf ∧ u.mem.wf ∧ 2 = s.orch.desc.len.toNat / 16 ∧ exec (.macTag false 1) s = .next t ∧
      t.orch.fail = false ∧ exec (.macTag false 1) u = .next v ∧ v.orch.fail = false ∧ u.orch = s.orch ∧
      (∀ j, j < 2 → j ≠ 0 →
        u.mem.readBlock (u.orch.desc.inBase + 16 * j) = s.mem.readBlock (s.orch.desc.inBase + 16 * j)) ∧
      u.mem.readBlock u.orch.desc.inBase ≠ s.mem.readBlock s.orch.desc.inBase :=
  ⟨withDesc macReady fun d => { d with len := 32#32 }, _,
    { (withDesc macReady fun d => { d with len := 32#32 }) with mem := [(0x100F, 1#8)] }, _, by decide, by decide,
    by decide, exec_of_clear (clearOf (by decide)), rfl, exec_of_clear (clearOf (by decide)), rfl, rfl, by decide,
    by decide⟩

end Sys2Proof.Tests
end

