-- ==== Sys2Proof/Proofs/EcbRoundTrip.lean ====
section
/-! PROOF. Buffers read as blocks, and the round trip of ECB (41_block_modes.md R121, R122). -/

namespace Sys2Proof.Machine

/-! ### Buffers as blocks -/

theorem readBlocks_succ (m : Memory) (a n : Nat) :
    m.readBlocks a (n + 1) = m.readBlock a :: m.readBlocks (a + 16) n := by
  simp [Memory.readBlocks, List.range_succ_eq_map, Function.comp_def, Nat.mul_add, Nat.add_comm, Nat.add_assoc]

/-- The bytes of a buffer are its blocks, one after another (R82). -/
theorem concatBlocks_readBlocks (m : Memory) (a n : Nat) :
    concatBlocks (m.readBlocks a n) = m.readBytes a (16 * n) := by
  induction n generalizing a with
  | zero => rfl
  | succ n ih =>
    calc concatBlocks (m.readBlocks a (n + 1))
        = m.readBytes a 16 ++ concatBlocks (m.readBlocks (a + 16) n) := by rw [readBlocks_succ]; rfl
      _ = m.readBytes a (16 * (n + 1)) := by rw [ih, ← readBytes_add, Nat.mul_succ, Nat.add_comm 16]

/-- The cut of a byte string into blocks is unique. -/
theorem concatBlocks_injective {as bs : List Block} (h : concatBlocks as = concatBlocks bs) : as = bs := by
  have hlen : as.length = bs.length := by
    have := congrArg List.length h
    simp only [length_concatBlocks] at this
    omega
  refine List.ext_getElem hlen fun i ha hb => block_ext (List.ext_getElem ?_ fun j hj _ => ?_)
  · rw [as[i].size_eq, bs[i].size_eq]
  · rw [as[i].size_eq] at hj
    rw [← getElem_concatBlocks as i j ha hj, ← getElem_concatBlocks bs i j hb hj]
    simp only [h]

/-- Two buffers hold the same blocks exactly when they hold the same bytes. -/
theorem readBlocks_eq_iff {m m' : Memory} {a a' n : Nat} :
    m.readBlocks a n = m'.readBlocks a' n ↔ m.readBytes a (16 * n) = m'.readBytes a' (16 * n) := by
  rw [← concatBlocks_readBlocks, ← concatBlocks_readBlocks]
  exact ⟨congrArg concatBlocks, concatBlocks_injective⟩

/-- The output buffer holds the blocks a block-mode command wrote to it. -/
theorem readBlocks_outputWrite {s : State} (hw : s.mem.wf) {out : List Block}
    (hn : out.length = s.orch.desc.blockCount) :
    (s.mem.commit (outputWrite s out)).readBlocks s.orch.desc.outBase s.orch.desc.blockCount = out := by
  refine List.ext_getElem (by simp [hn]) fun i _ hi => ?_
  rw [getElem_readBlocks, outputWrite, commit_one, readBlock_writeBlocks hw _ _ i hi]

@[simp] theorem length_inputBlocks (s : State) : (inputBlocks s).length = s.orch.desc.blockCount :=
  length_readBlocks ..

theorem len_eq_mul_blockCount {d : Descriptor} (h : 16 ∣ d.len.toNat) : d.len.toNat = 16 * d.blockCount :=
  (Nat.mul_div_cancel' h).symm

/-! ### What a successful ECB command has done -/

theorem ecbEnc_success {tok : Nat} {s t : State} (hw : s.mem.wf) (h : exec (.ecbEnc tok) s = .next t)
    (hf : t.orch.fail = false) :
    16 ∣ s.orch.desc.len.toNat ∧ t.orch.ctx = s.orch.ctx ∧
      t.mem.readBlocks s.orch.desc.outBase s.orch.desc.blockCount =
        (inputBlocks s).map (encryptBlock s.orch.ctx) := by
  obtain ⟨hclear, rfl⟩ := exec_success h hf
  exact ⟨not_not.1 (hclear .badLength), rfl, readBlocks_outputWrite hw (by simp)⟩

theorem ecbDec_success {tok : Nat} {s t : State} (hw : s.mem.wf) (h : exec (.ecbDec tok) s = .next t)
    (hf : t.orch.fail = false) :
    t.mem.readBlocks s.orch.desc.outBase s.orch.desc.blockCount =
      (inputBlocks s).map (decryptBlock s.orch.ctx) := by
  obtain ⟨-, rfl⟩ := exec_success h hf
  exact readBlocks_outputWrite hw (by simp)

/-! ### The round trip -/

/-- Settles O35: both buffers are read as blocks, and `D_c` undoes `E_c` on each of them (R8). -/
theorem ecbRoundTrip : Obligations.EcbRoundTrip := by
  intro tok tok' s t u v hws hwu henc hft hctx hlen hin hdec hfv
  obtain ⟨hdvd, hctx', hct⟩ := ecbEnc_success hws henc hft
  have hpt := ecbDec_success hwu hdec hfv
  have hcount : u.orch.desc.blockCount = s.orch.desc.blockCount := by
    simp only [Descriptor.blockCount, Descriptor.length, hlen]
  rw [len_eq_mul_blockCount hdvd, ← readBlocks_eq_iff] at hin ⊢
  calc v.mem.readBlocks u.orch.desc.outBase s.orch.desc.blockCount
      = (inputBlocks u).map (decryptBlock s.orch.ctx) := by rw [← hcount, hpt, hctx, hctx']
    _ = ((inputBlocks s).map (encryptBlock s.orch.ctx)).map (decryptBlock s.orch.ctx) := by
        rw [inputBlocks, hcount, hin, hct]
    _ = inputBlocks s := by simp [Function.comp_def]

end Sys2Proof.Machine
end

