-- ==== Sys2Proof/Proofs/Commands.lean ====
section
/-! PROOF. What every command answers and leaves alone (30_encoding.md R78 to R81, 10_state.md R25, R32). -/

namespace Sys2Proof.Machine

/-! ### Results -/

/-- R180 names ten codes, 1 to 10. -/
theorem err_code_bounds (e : Err) : 1 ≤ e.code.toNat ∧ e.code.toNat ≤ 10 := by
  cases e <;> decide

theorem command_answers (s : State) (cs : List (Option Err)) (ws : List (Nat × List Byte)) (o : Orch) :
    ∃ t, command s cs ws o = .next t := by
  unfold command
  cases firstError cs with
  | none => exact ⟨_, rfl⟩
  | some e => exact ⟨_, rfl⟩

theorem exec_answers (i : Instr) (s : State) : ∃ t, exec i s = .next t :=
  exec_eq_command i s ▸ command_answers s _ _ _

/-- The form of R79 and R81 that every command has: its first failing check is its whole effect. -/
theorem reportsFirstFailure (i : Instr) (s : State) : ReportsFirstFailure i s := by
  intro c hc
  rw [exec_eq_command, command, error_of_firstFailure hc, ← raise_eq_failedWith]

theorem complete_sameOutside (s : State) (ws : List (Nat × List Byte)) (o : Orch) : SameOutside s (s.complete ws o) :=
  ⟨rfl, rfl, rfl, rfl⟩

theorem raise_sameOutside (s : State) (e : Err) : SameOutside s (s.raise e) :=
  ⟨rfl, rfl, rfl, rfl⟩

/-! ### What a completing command leaves of the block's state -/

@[simp] theorem orchAfter_desc (s : State) (i : Instr) : (orchAfter s i).desc = s.orch.desc := by
  cases i <;> rfl

/-- The lock changes only by `ACQUIRE` and `RELEASE` (R27). -/
theorem lockCommand_of_orchAfter {s : State} {i : Instr}
    (h : ((orchAfter s i).locked, (orchAfter s i).owner) ≠ (s.orch.locked, s.orch.owner)) :
    ∃ tok, i = .acquire tok ∨ i = .release tok := by
  cases i with
  | acquire tok => exact ⟨tok, .inl rfl⟩
  | release tok => exact ⟨tok, .inr rfl⟩
  | _ => exact absurd rfl h

/-- `GEN` changes only by `ACQUIRE` (R28). -/
theorem acquire_of_orchAfter_gen {s : State} {i : Instr} (h : (orchAfter s i).gen ≠ s.orch.gen) :
    ∃ tok, i = .acquire tok := by
  cases i with
  | acquire tok => exact ⟨tok, rfl⟩
  | _ => exact absurd rfl h

/-- `CTX` changes only by `KEY_INIT` and `RELEASE` (R30). -/
theorem keyCommand_of_orchAfter_ctx {s : State} {i : Instr} (h : (orchAfter s i).ctx ≠ s.orch.ctx) :
    ∃ tok, i = .keyInit tok ∨ i = .release tok := by
  cases i with
  | keyInit tok => exact ⟨tok, .inl rfl⟩
  | release tok => exact ⟨tok, .inr rfl⟩
  | _ => exact absurd rfl h

/-- `MAC_READY` changes only by `MAC_LOAD_KEY`, `KEY_INIT` and `RELEASE` (R31). -/
theorem macCommand_of_orchAfter_macReady {s : State} {i : Instr} (h : (orchAfter s i).macReady ≠ s.orch.macReady) :
    ∃ tok, i = .macLoadKey tok ∨ i = .keyInit tok ∨ i = .release tok := by
  cases i with
  | macLoadKey tok => exact ⟨tok, .inl rfl⟩
  | keyInit tok => exact ⟨tok, .inr (.inl rfl)⟩
  | release tok => exact ⟨tok, .inr (.inr rfl)⟩
  | _ => exact absurd rfl h

theorem exec_desc {i : Instr} {s t : State} (h : exec i s = .next t) : t.orch.desc = s.orch.desc := by
  rcases exec_cases h with ⟨e, -, rfl⟩ | ⟨-, rfl⟩
  · rfl
  · simp

theorem exec_sameOutside {i : Instr} {s t : State} (h : exec i s = .next t) : SameOutside s t := by
  rcases exec_cases h with ⟨e, -, rfl⟩ | ⟨-, rfl⟩
  · exact raise_sameOutside s e
  · exact complete_sameOutside s _ _

/-! ### The statements -/

/-- Settles O14: a command raises an error, whose code is one of R180's ten, or completes. -/
theorem commandAlwaysReportsAResult : Obligations.CommandAlwaysReportsAResult := by
  intro i s
  obtain ⟨t, ht⟩ := exec_answers i s
  refine ⟨t, ht, ?_⟩
  rcases exec_cases ht with ⟨e, -, rfl⟩ | ⟨-, rfl⟩
  · exact .inr ⟨rfl, err_code_bounds e⟩
  · exact .inl ⟨rfl, rfl⟩

/-- Settles O15, by the frame of the two ways a command ends. -/
theorem commandLeavesDescriptorsAlone : Obligations.CommandLeavesDescriptorsAlone :=
  fun _ _ _ h => ⟨exec_desc h, exec_sameOutside h⟩

end Sys2Proof.Machine
end

