-- ==== Sys2Proof/Proofs/HostAccesses.lean ====
section
/-! PROOF. The register window and host accesses, one rule for each place an access lands (10_state.md R20 to R26). -/

namespace Sys2Proof.Machine

/-! ### Where an access lands -/

theorem hostTarget_misuse {p : Platform} {addr : Word} {size : AccessSize}
    (h1 : p.aesBase.toNat < addr.toNat + size.bytes) (h2 : addr.toNat < p.aesBase.toNat + 64)
    (h3 : size ≠ .word ∨ addr.toNat < p.aesBase.toNat ∨ ¬ 4 ∣ addr.toNat - p.aesBase.toNat) :
    hostTarget p addr size = .windowMisuse := by
  rw [Nat.dvd_iff_mod_eq_zero, ← Nat.not_le] at h3
  simp only [hostTarget, Config.windowBytes]
  rw [if_pos ⟨h1, h2⟩, if_neg (by tauto)]

theorem hostTarget_byte_outside {p : Platform} {addr : Word}
    (h : addr.toNat < p.aesBase.toNat ∨ p.aesBase.toNat + 64 ≤ addr.toNat) :
    hostTarget p addr .byte = .memoryByte := by
  simp only [hostTarget, Config.windowBytes, AccessSize.bytes]
  rw [if_neg (by omega), if_pos trivial]

theorem windowSlot_offset (r : DescReg) : windowSlot r.offset = .desc r := by
  cases r <;> rfl

theorem windowSlot_desc {off : Nat} {r : DescReg} (h : windowSlot off = .desc r) : off = r.offset := by
  unfold windowSlot at h
  split at h <;> cases h <;> rfl

theorem offset_bounds (r : DescReg) : r.offset < 64 ∧ r.offset % 4 = 0 := by
  cases r <;> decide

/-- The offsets that hold no descriptor register: `CMD`, `STATUS` and the reserved slots (R21). -/
theorem windowSlot_other {off : Nat} (h : off ∈ [0x00, 0x04, 0x08, 0x0C, 0x30, 0x34, 0x38, 0x3C]) :
    off < 64 ∧ off % 4 = 0 ∧
      windowSlot off = if off = 0 then .cmd else if off = 4 then .status else .reserved := by
  simp only [List.mem_cons, List.not_mem_nil, or_false] at h
  rcases h with rfl | rfl | rfl | rfl | rfl | rfl | rfl | rfl <;> decide

/-! ### One step for each kind of access -/

theorem step_cons {s : State} {a : HostAccess} {rest : List HostAccess} (hp : s.pending = a :: rest) :
    step s = perform a { s with pending := rest } := by
  simp only [step, hp]

theorem step_writesCmd {s : State} {w : Word} (h : WritesCmd s w) :
    step s = issue w { s with pending := s.pending.tail } := by
  obtain ⟨rest, hp⟩ := h
  rw [step_cons hp, perform, hostWrite, hostTarget_cmd, hp]
  rfl

section Window

variable {s : State} {off : Nat} {rest : List HostAccess}
  (hb : s.platform.aesBase.toNat + 64 ≤ 2 ^ 32) (ho : off < 64) (h4 : off % 4 = 0)

include hb ho h4

theorem step_write_slot {v : Word} (hp : s.pending = .write (s.platform.windowAddr off) .word v :: rest) :
    step s = windowWrite off v { s with pending := rest } := by
  rw [step_cons hp, perform, hostWrite, hostTarget_window hb ho h4]

theorem step_read_slot (hp : s.pending = .read (s.platform.windowAddr off) .word :: rest) :
    step s = .next (State.answer (windowRead off s) { s with pending := rest }) := by
  rw [step_cons hp, perform, hostRead, hostTarget_window hb ho h4]
  rfl

end Window

theorem step_write_byte {s : State} {addr v : Word} {rest : List HostAccess}
    (h : addr.toNat < s.platform.aesBase.toNat ∨ s.platform.aesBase.toNat + 64 ≤ addr.toNat)
    (hp : s.pending = .write addr .byte v :: rest) :
    step s = .next { s with pending := rest, mem := s.mem.setByte addr.toNat (v.setWidth 8) } := by
  rw [step_cons hp, perform, hostWrite, hostTarget_byte_outside h]

theorem step_read_byte {s : State} {addr : Word} {rest : List HostAccess}
    (h : addr.toNat < s.platform.aesBase.toNat ∨ s.platform.aesBase.toNat + 64 ≤ addr.toNat)
    (hp : s.pending = .read addr .byte :: rest) :
    step s = .next { s with pending := rest, readData := (s.mem.byteAt addr.toNat).setWidth 32 } := by
  rw [step_cons hp, perform, hostRead, hostTarget_byte_outside h]
  rfl

/-! ### `STATUS` -/

theorem keyClassCode_le (c : KeyClass) : keyClassCode c ≤ 2 := by
  cases c <;> decide

theorem keyClassField_le (o : Orch) : o.keyClassField ≤ 2 := by
  unfold Orch.keyClassField
  split
  · exact keyClassCode_le _
  · exact Nat.zero_le 2

/-- `STATUS` as a number: its fields fill 24 bits, so the sum of R24 does not wrap. -/
theorem status_toNat (o : Orch) :
    o.status.toNat = o.fail.toNat + 16 * o.err.toNat + 256 * o.locked.toNat + 512 * o.ctx.valid.toNat
      + 1024 * o.macReady.toNat + 2048 * o.keyClassField + 65536 * o.owner.toNat := by
  have hf := o.fail.toNat_lt
  have hl := o.locked.toNat_lt
  have hv := o.ctx.valid.toNat_lt
  have hm := o.macReady.toNat_lt
  have hc := keyClassField_le o
  rw [Orch.status, BitVec.toNat_ofNat]
  omega

/-! ### The statements -/

/-- Settles O6: a write of `CMD` is `issue`, which runs the decoded command; `withFetchWord` places such a write. -/
theorem cmdWriteRunsTheDecodedCommand : Obligations.CmdWriteRunsTheDecodedCommand := by
  have hrun : ∀ (s : State) (w : Word) (i : Instr), WritesCmd s w → decode w = .ok i →
      step s = exec i { s with pending := s.pending.tail } := by
    intro s w i hw hd
    rw [step_writesCmd hw, issue, hd]
  refine ⟨hrun, fun s nbits w i hi => ?_, fun s hp => by simp only [step, hp]⟩
  simp only [decodeTableWord, Option.ite_none_right_eq_some] at hi
  obtain ⟨⟨-, hlt⟩, hi⟩ := hi
  have hd : decode (BitVec.ofNat 32 (w % 2 ^ nbits)) = .ok i := by
    rw [Nat.mod_eq_of_lt hlt]
    split at hi
    · rename_i j hj
      rw [hj, Option.some.inj hi]
    · cases hi
  exact hrun (s.withFetchWord nbits w) _ i ⟨s.pending, rfl⟩ hd

/-- Settles O23: each field is a digit of the sum in `status_toNat`. -/
theorem statusShowsItsFields : Obligations.StatusShowsItsFields := by
  intro o
  have hf := o.fail.toNat_lt
  have hl := o.locked.toNat_lt
  have hv := o.ctx.valid.toNat_lt
  have hm := o.macReady.toNat_lt
  have he := o.err.isLt
  have ho := o.owner.isLt
  have hc := keyClassField_le o
  have hclass : o.keyClassField = if o.ctx.valid = false then 0 else keyClassCode o.ctx.cls := by
    cases h : o.ctx.valid <;> simp [Orch.keyClassField, h]
  have hfield : o.status.toNat / 2048 % 4 = o.keyClassField := by
    rw [status_toNat]
    omega
  rw [hclass] at hfield
  refine ⟨?_, ?_, ?_, ?_, ?_, ?_, hfield, ?_, ?_, ?_⟩ <;> rw [status_toNat] <;> omega

/-- Settles O24: the write reaches the register's slot, and so does the read after it. -/
theorem descriptorReadsAsLastWritten : Obligations.DescriptorReadsAsLastWritten := by
  intro s r v rest hb hp
  obtain ⟨ho, h4⟩ := offset_bounds r
  have hwrite := step_write_slot hb ho h4 hp
  rw [windowWrite, windowSlot_offset] at hwrite
  refine ⟨_, _, hwrite, step_read_slot hb ho h4 rfl, ?_⟩
  have hread (u : State) : windowRead r.offset u = u.orch.desc.get r := by
    rw [windowRead, windowSlot_offset]
  rw [hread, setDesc_desc, get_set_same]
  exact ⟨rfl, rfl, fun q hq => get_set_other _ v hq, rfl, rfl, rfl, rfl, rfl, rfl⟩

/-- Settles O25: an offset of the list is `CMD`, `STATUS` or reserved, and `windowWrite` and `windowRead` say what
happens there. -/
theorem cmdStatusAndReservedSlots : Obligations.CmdStatusAndReservedSlots := by
  intro s off rest hb hoff
  obtain ⟨ho, h4, hslot⟩ := windowSlot_other hoff
  refine ⟨fun v h0 hp => ?_, fun hp => ?_⟩
  · rw [step_write_slot hb ho h4 hp, windowWrite, hslot, if_neg h0]
    by_cases hst : off = 4 <;> simp [hst]
  · rw [step_read_slot hb ho h4 hp, windowRead, hslot]
    by_cases h0 : off = 0
    · subst h0
      rfl
    · by_cases hst : off = 4 <;> simp [h0, hst, State.answer]

/-- Settles O26: such an access lands on `windowMisuse`, which reads and writes refuse alike. -/
theorem narrowOrMisalignedWindowAccessIsRefused : Obligations.NarrowOrMisalignedWindowAccessIsRefused := by
  intro s a addr size rest hp ha h1 h2 h3
  have ht := hostTarget_misuse h1 h2 h3
  rcases ha with rfl | ⟨v, rfl⟩
  · rw [step_cons hp, perform, hostRead, ht]
  · rw [step_cons hp, perform, hostWrite, ht]

/-- Settles O27, by the law of `setByte`. -/
theorem hostByteWriteIsSeen : Obligations.HostByteWriteIsSeen := by
  intro s addr v rest hw hout hp
  refine ⟨_, _, step_write_byte hout hp, step_read_byte hout rfl, ?_⟩
  have hseen : (s.mem.setByte addr.toNat (v.setWidth 8)).byteAt addr.toNat = v.setWidth 8 := by
    rw [byteAt_setByte hw, if_pos rfl]
  refine ⟨hseen, fun x hx => ?_, rfl, ?_, rfl⟩
  · rw [byteAt_setByte hw, if_neg hx]
  · simp only [hseen, BitVec.toNat_setWidth]
    omega

end Sys2Proof.Machine
end

