-- ==== Sys2Proof/Proofs/CtrAndMacLoadKey.lean ====
section
/-! PROOF. What a CTR command and `MAC_LOAD_KEY` write (42_ctr_stream.md R141 to R148, 43_mac.md R161). -/

namespace Sys2Proof.Machine

/-! ### The stream a CTR command works on -/

/-- A CTR command that passed its checks starts from an offset below 16: INIT sets it to 0, and a stored one was checked
(R141, R147). -/
theorem startStream_offset_lt {i : Instr} {init : Bool} {s : State} (hc : Clear i s) (hi : i.resumesStream = !init) :
    (startStream init s.mem s.orch.desc).offset < 16 := by
  cases init with
  | true => exact Nat.zero_lt_succ 15
  | false =>
    have hoff : ¬ 15 < storedOffset s.mem s.orch.desc := fun h => hc .badOffset ⟨hi, h⟩
    exact Nat.lt_succ_of_le (Nat.not_lt.1 hoff)

section CtrResult

variable {init : Bool} {s : State} (ho : (startStream init s.mem s.orch.desc).offset < 16)

include ho

theorem ctrResult_eq_ctrBytes :
    ctrResult init s = ctrBytes (encryptBlock s.orch.ctx) (startStream init s.mem s.orch.desc)
      (s.mem.readBytes s.orch.desc.inBase s.orch.desc.length) :=
  ctrProcess_eq _ _ ho _

theorem length_ctrResult : (ctrResult init s).1.length = s.orch.desc.len.toNat := by
  rw [ctrResult_eq_ctrBytes ho, length_ctrBytes, length_readBytes, Descriptor.length]

/-- The output is the input xor the keystream (R142, R148). -/
theorem getElem_ctrResult (j : Nat) (hj : j < (ctrResult init s).1.length) :
    (ctrResult init s).1[j] = s.mem.byteAt (s.orch.desc.inBase + j) ^^^
      keystreamByte (encryptBlock s.orch.ctx) (startStream init s.mem s.orch.desc) j := by
  have hlen : j < (s.mem.readBytes s.orch.desc.inBase s.orch.desc.length).length := by
    simpa only [ctrResult_eq_ctrBytes ho, length_ctrBytes] using hj
  simp only [ctrResult_eq_ctrBytes ho, (ctrBytes_closed _ _ ho _).1 j hlen, getElem_readBytes]

theorem ctrResult_stream :
    (ctrResult init s).2 =
      streamAfter (encryptBlock s.orch.ctx) (startStream init s.mem s.orch.desc) s.orch.desc.len.toNat := by
  rw [ctrResult_eq_ctrBytes ho, (ctrBytes_closed _ _ ho _).2, length_readBytes, Descriptor.length]

end CtrResult

/-! ### Two writes that do not meet -/

/-- Bytes written first keep their value when the second write lies elsewhere. -/
theorem byteAt_writeBytes_writeBytes {m : Memory} (hw : m.wf) {a b : Nat} {v w : List Byte} {j : Nat}
    (hj : j < v.length) (hout : ¬ (b ≤ a + j ∧ a + j < b + w.length)) :
    ((m.writeBytes a v).writeBytes b w).byteAt (a + j) = v[j] := by
  rw [byteAt_writeBytes_outside (wf_writeBytes hw a v) hout, byteAt_writeBytes_inside hw a v j hj]

theorem byteAt_writeBytes_writeBytes_outside {m : Memory} (hw : m.wf) {a b : Nat} {v w : List Byte} {x : Nat}
    (h1 : ¬ (a ≤ x ∧ x < a + v.length)) (h2 : ¬ (b ≤ x ∧ x < b + w.length)) :
    ((m.writeBytes a v).writeBytes b w).byteAt x = m.byteAt x := by
  rw [byteAt_writeBytes_outside (wf_writeBytes hw a v) h2, byteAt_writeBytes_outside hw h1]

theorem readBlock_writeBytes {m : Memory} (hw : m.wf) (a : Nat) (b : Block) :
    (m.writeBytes a b.bytes).readBlock a = b := by
  have h := readBytes_writeBytes hw a b.bytes
  rw [b.size_eq] at h
  exact block_ext h

/-! ### Counter mode -/

/-- The output and the record of a CTR command that passed its checks have no byte in common (R57, R58). -/
theorem ctr_output_stream_disjoint {i : Instr} {init : Bool} {s : State} (hc : Clear i s) (hi : i.isCtr init) {x : Nat}
    (h1 : s.orch.desc.outBase ≤ x) (h2 : x < s.orch.desc.outBase + s.orch.desc.len.toNat) :
    ¬ (s.orch.desc.streamBase ≤ x ∧ x < s.orch.desc.streamBase + 33) := by
  have hmac : i.isMacTag = false := by
    obtain ⟨tok, rfl | rfl⟩ := hi <;> rfl
  have hreg : i.regions s.orch.desc = ctrRegions init s.orch.desc := by
    rw [regions_eq]
    obtain ⟨tok, rfl | rfl⟩ := hi <;> rfl
  exact clear_disjoint hc (r := ⟨.output, s.orch.desc.outBase, s.orch.desc.length, .w⟩)
    (q := ⟨.stream, s.orch.desc.streamBase, 33, .rw⟩) (by simp [hreg, ctrRegions, ecbRegions])
    (by simp [hreg, ctrRegions]) nofun (.inl rfl) (by simp [hmac]) h1 h2

/-- Settles O37: the record and the output do not meet, so each reads back as it was written, in the closed form of the
stream. -/
theorem ctrCommandAppliesTheKeystream : Obligations.CtrCommandAppliesTheKeystream := by
  intro init tok s i st hw hi hst
  refine ⟨fun hc => ?_, reportsFirstFailure i s⟩
  have hst : st = startStream init s.mem s.orch.desc := hst
  have hresume : i.resumesStream = !init := by rcases hi with rfl | rfl <;> rfl
  have ho := startStream_offset_lt hc hresume
  have hlen := length_ctrResult ho
  have hexec : exec i s = .next (s.complete (ctrWrites s (ctrResult init s)) s.orch) := by
    rw [exec_of_clear hc]
    rcases hi with rfl | rfl <;> rfl
  refine ⟨_, hexec, rfl, complete_sameOutside s _ _, ?_⟩
  have hw' := wf_writeBytes hw s.orch.desc.outBase (ctrResult init s).1
  have hrecord := readBytes_writeBytes hw' s.orch.desc.streamBase (ctrResult init s).2.record
  rw [length_record] at hrecord
  rw [complete_mem, ctrWrites, commit_two, hst, ← ctrResult_stream ho]
  have hoffset : (ctrResult init s).2.offset =
      ((startStream init s.mem s.orch.desc).offset + s.orch.desc.len.toNat) % 16 := by
    rw [ctrResult_stream ho]
    rfl
  obtain ⟨hcounter, hcache, hoff⟩ := readRecord hrecord (hoffset ▸ Nat.mod_lt _ (by decide))
  refine ⟨fun j hj => ?_, hcounter, hcache, hoff.trans hoffset, fun x h1 h2 => ?_⟩
  · have hj' : j < (ctrResult init s).1.length := hlen ▸ hj
    have hdisj := ctr_output_stream_disjoint hc ⟨tok, hi⟩ (Nat.le_add_right _ j) (Nat.add_lt_add_left hj _)
    rw [byteAt_writeBytes_writeBytes hw hj' (by rwa [length_record]), getElem_ctrResult ho]
  · exact byteAt_writeBytes_writeBytes_outside hw (by rwa [hlen]) (by rwa [length_record])

/-! ### `MAC_LOAD_KEY` -/

/-- Settles O42: the command writes one block, which reads back as written. -/
theorem macLoadKeyEncryptsOneBlock : Obligations.MacLoadKeyEncryptsOneBlock := by
  intro tok s hw
  refine ⟨fun hc => ⟨_, exec_of_clear hc, rfl, complete_sameOutside s _ _, ?_, fun x hx => ?_⟩, reportsFirstFailure _ s⟩
  · exact readBlock_writeBytes hw _ _
  · exact byteAt_writeBytes_outside hw (by rwa [Block.size_eq])

end Sys2Proof.Machine
end

