-- ==== Sys2Proof/Proofs/LegalStates.lean ====
section
/-! PROOF. Legal states: reset gives one and every step but the end of a low-power mode keeps it (10_state.md R27 to R32,
R37, R50). -/

namespace Sys2Proof.Machine

/-! ### The block -/

theorem orchReset_legal : Orch.reset.Legal where
  held := nofun
  free := fun _ => ⟨rfl, rfl, rfl⟩
  ready := nofun
  keyLength := rfl
  errCode := Nat.zero_le 10
  failCode := iff_of_false nofun (not_not.2 rfl)

theorem err_code_ne_zero (e : Err) : e.code ≠ 0#4 := by
  cases e <;> decide

theorem raise_legal {s : State} (h : s.orch.Legal) (e : Err) : (s.raise e).orch.Legal where
  held := h.held
  free := h.free
  ready := h.ready
  keyLength := h.keyLength
  errCode := (err_code_bounds e).2
  failCode := iff_of_true rfl (err_code_ne_zero e)

theorem succeeded_legal {o : Orch} (h : o.Legal) : (succeeded o).Legal where
  held := h.held
  free := h.free
  ready := h.ready
  keyLength := h.keyLength
  errCode := Nat.zero_le 10
  failCode := iff_of_false nofun (not_not.2 rfl)

theorem setDesc_legal {s : State} (h : s.orch.Legal) (r : DescReg) (v : Word) : (s.setDesc r v).orch.Legal where
  held := h.held
  free := h.free
  ready := h.ready
  keyLength := h.keyLength
  errCode := h.errCode
  failCode := h.failCode

/-- The token 0 is never granted (R101). -/
theorem nextToken_ne_zero (g : BitVec 8) : nextToken g ≠ 0#8 := by
  unfold nextToken
  split
  · decide
  · bv_omega

theorem clear_locked {i : Instr} {s : State} (hc : Clear i s) (hi : i.isAcquire = false) : s.orch.locked = true :=
  Bool.of_not_eq_false fun h => hc .engineFree ⟨hi, h⟩

theorem clear_valid {i : Instr} {s : State} (hc : Clear i s) (hi : i.isCipher = true) : s.orch.ctx.valid = true :=
  Bool.of_not_eq_false fun h => hc .noKey ⟨hi, h⟩

/-- The key that `KEY_INIT` loads has the length of its class, when the check of R103 passed. -/
theorem loadedContext_keyLength {tok : Nat} {s : State} (hc : Clear (.keyInit tok) s) :
    (loadedContext s.mem s.orch.desc).key.length = keyBytes (loadedContext s.mem s.orch.desc).cls := by
  have hk : ¬ ((s.orch.desc.keyBits.toNat ≠ 128 ∧ s.orch.desc.keyBits.toNat ≠ 192 ∧ s.orch.desc.keyBits.toNat ≠ 256) ∨
      s.orch.desc.keyLen.toNat * 8 ≠ s.orch.desc.keyBits.toNat) := fun h => hc .badKeyLength ⟨rfl, h⟩
  simp only [loadedContext, length_readBytes, keyClassOfBits]
  split_ifs <;> simp only [Option.getD_some, keyBytes] <;> omega

/-- A command that passed its checks keeps the block legal. -/
theorem orchAfter_legal {i : Instr} {s : State} (h : s.orch.Legal) (hc : Clear i s) : (orchAfter s i).Legal := by
  cases i with
  | acquire tok =>
    exact { h with
      held := fun _ => ⟨nextToken_ne_zero _, rfl⟩
      free := nofun }
  | release tok =>
    exact { h with
      held := nofun
      free := fun _ => ⟨rfl, rfl, rfl⟩
      ready := nofun
      keyLength := rfl }
  | keyInit tok =>
    exact { h with
      free := fun hf => absurd (clear_locked hc rfl) (hf ▸ Bool.false_ne_true)
      ready := nofun
      keyLength := loadedContext_keyLength hc }
  | macLoadKey tok =>
    exact { h with
      free := fun hf => absurd (clear_locked hc rfl) (hf ▸ Bool.false_ne_true)
      ready := fun _ => clear_valid hc rfl }
  | ecbEnc tok | ecbDec tok | cbcEnc tok | cbcDec tok | ctrEnc f tok | ctrDec f tok | macTag f tok => exact h

/-! ### Caller memory -/

theorem setByte_legal {m : Memory} (h : m.Legal) {a : Nat} (ha : a < 2 ^ 32) (v : Byte) : (m.setByte a v).Legal where
  wf := wf_setByte h.wf a v
  inSpace c hc := by
    rcases mem_setByte hc with hc | ⟨rfl, -⟩
    · exact h.inSpace c hc
    · exact ha

theorem blockCount_le (d : Descriptor) : 16 * d.blockCount ≤ d.len.toNat :=
  Nat.mul_div_le ..

/-- What a block-mode command writes lies in its output region. -/
theorem outputWrite_within {s : State} {out : List Block} (hn : out.length = s.orch.desc.blockCount)
    {w : Nat × List Byte} (hw : w ∈ outputWrite s out) :
    w.1 = s.orch.desc.outAddr.toNat ∧ w.2.length ≤ s.orch.desc.len.toNat := by
  obtain rfl := List.mem_singleton.1 hw
  exact ⟨rfl, by rw [length_concatBlocks, hn]; exact blockCount_le _⟩

theorem length_scratch (f : Bool) (s : State) :
    (concatBlocks (macResult f s).1).length ≤ s.orch.desc.len.toNat := by
  have := blockCount_le s.orch.desc
  rw [length_concatBlocks, macResult, length_macChain, length_readBlocks]
  omega

/-- Every write of a command that passed its checks lies inside one of its regions (R58). -/
theorem writesOf_within_regions {i : Instr} {s : State} (hc : Clear i s) {w : Nat × List Byte}
    (hw : w ∈ writesOf s i) : ∃ r ∈ i.regions s.orch.desc, r.base = w.1 ∧ w.2.length ≤ r.size := by
  cases i with
  | acquire tok | release tok | keyInit tok => cases hw
  | ecbEnc tok | ecbDec tok | cbcEnc tok | cbcDec tok =>
    obtain ⟨h1, h2⟩ := outputWrite_within (by simp) hw
    exact ⟨⟨.output, s.orch.desc.outAddr.toNat, s.orch.desc.len.toNat, .w⟩, by simp [Instr.regions], h1.symm, h2⟩
  | ctrEnc f tok | ctrDec f tok =>
    have hlen := length_ctrResult (startStream_offset_lt (init := f) hc rfl)
    rw [regions_eq]
    rcases List.mem_pair.1 hw with rfl | rfl
    · exact ⟨⟨.output, s.orch.desc.outBase, s.orch.desc.length, .w⟩, by simp [ctrRegions, ecbRegions], rfl, hlen.le⟩
    · exact ⟨⟨.stream, s.orch.desc.streamBase, 33, .rw⟩, by simp [ctrRegions], rfl, (length_record _).le⟩
  | macTag f tok =>
    rw [regions_eq]
    rcases List.mem_pair.1 hw with rfl | rfl
    · exact ⟨⟨.data, s.orch.desc.inBase, s.orch.desc.length, if 1 < s.orch.desc.blockCount then .rw else .r⟩,
        by simp [macTagRegions], rfl, length_scratch f s⟩
    · exact ⟨⟨.tag, s.orch.desc.outBase, 16, .w⟩, by simp [macTagRegions], rfl, (Block.size_eq _).le⟩
  | macLoadKey tok =>
    obtain rfl := List.mem_singleton.1 hw
    exact ⟨⟨.output, s.orch.desc.outAddr.toNat, 16, .w⟩, by simp [Instr.regions], rfl, (Block.size_eq _).le⟩

/-- A command that passed its checks keeps caller memory legal: its regions do not wrap (R55). -/
theorem commit_writesOf_legal {i : Instr} {s : State} (h : s.mem.Legal) (hc : Clear i s) :
    (s.mem.commit (writesOf s i)).Legal where
  wf := wf_commit h.wf _
  inSpace c hmem := by
    rcases mem_commit hmem with hmem | ⟨w, hw, h1, h2⟩
    · exact h.inSpace c hmem
    · obtain ⟨r, hr, hbase, hsize⟩ := writesOf_within_regions hc hw
      have hbound := clear_bound hc hr (by omega)
      omega

/-! ### Steps -/

theorem exec_orch_legal {i : Instr} {s t : State} (h : s.orch.Legal) (he : exec i s = .next t) : t.orch.Legal := by
  rcases exec_cases he with ⟨e, -, rfl⟩ | ⟨hc, rfl⟩
  · exact raise_legal h e
  · exact succeeded_legal (orchAfter_legal h (clear_iff.2 hc))

theorem exec_mem_legal {i : Instr} {s t : State} (h : s.mem.Legal) (he : exec i s = .next t) : t.mem.Legal := by
  rcases exec_cases he with ⟨e, -, rfl⟩ | ⟨hc, rfl⟩
  · exact h
  · exact commit_writesOf_legal h (clear_iff.2 hc)

/-- The memory part holds of every step, the end of a low-power mode too. -/
theorem step_mem_legal {s t : State} (h : s.mem.Legal) (hst : step s = .next t) : t.mem.Legal := by
  cases step_cases hst with
  | command w rest i t hp hd he => exact exec_mem_legal (s := { s with pending := rest }) h he
  | byte addr v rest hp => exact setByte_legal h addr.isLt _
  | idle | illegal | ignored | desc | read | reset | wake => exact h

theorem step_orch_legal {s t : State} (h : s.orch.Legal) (hw : ¬ Wakes s) (hst : step s = .next t) : t.orch.Legal := by
  cases step_cases hst with
  | command w rest i t hp hd he => exact exec_orch_legal (s := { s with pending := rest }) h he
  | illegal w rest e hp hd => exact raise_legal (s := { s with pending := rest }) h _
  | desc addr w rest r hp ha hr => exact setDesc_legal (s := { s with pending := rest }) h r w
  | reset rest hp => exact orchReset_legal
  | wake rest hp => exact absurd ⟨rest, hp⟩ hw
  | idle | ignored | byte | read => exact h

/-! ### The statements -/

/-- Settles O8: the block's reset values, and a memory that lists nothing. -/
theorem resetStateIsLegal : Obligations.ResetStateIsLegal :=
  ⟨orchReset_legal, ⟨List.Pairwise.nil, nofun⟩, nofun⟩

/-- Settles O7: the step sets the block to `Orch.reset`, whose fields are R37's values, and nothing else but `pending`. -/
theorem resetGivesTheResetValues : Obligations.ResetGivesTheResetValues := by
  rintro s ⟨rest, hp⟩
  refine ⟨_, step_cons hp, rfl, rfl, rfl, rfl, rfl, rfl, rfl, rfl, rfl, fun r => ?_, rfl, rfl, rfl, rfl, ?_, rfl, rfl⟩
  · cases r <;> rfl
  · rw [hp]
    rfl

/-- Settles O9: the block and caller memory each stay legal. -/
theorem stepKeepsLegalStates : Obligations.StepKeepsLegalStates :=
  fun _ _ h hw hst => ⟨step_orch_legal h.orch hw hst, step_mem_legal h.mem hst⟩

end Sys2Proof.Machine
end

