-- ==== Sys2Proof/Proofs/WhoChangesWhat.lean ====
section
/-! PROOF. Which steps change which part of the block's state (10_state.md R25, R27, R28, R30 to R32). -/

namespace Sys2Proof.Machine

/-! ### The engine -/

/-- A part of the block's state apart from the descriptor registers and the result changes only when a command runs and
changes it. -/
theorem command_of_engine_change {α : Type} (f : Orch → α)
    (hf : ∀ o d b e, f { o with desc := d, fail := b, err := e } = f o) {s t : State} (hst : step s = .next t)
    (hr : ¬ Resets s) (hw : ¬ Wakes s) (hne : f t.orch ≠ f s.orch) :
    ∃ i, Runs s i ∧ f (orchAfter s i) ≠ f s.orch := by
  cases step_cases hst with
  | command w rest i t hp hd he =>
    refine ⟨i, ⟨w, ⟨rest, hp⟩, hd⟩, ?_⟩
    rcases exec_cases he with ⟨e, -, rfl⟩ | ⟨-, rfl⟩
    · exact absurd (hf s.orch _ _ _) hne
    · exact fun heq => hne ((hf (orchAfter s i) _ _ _).trans heq)
  | illegal w rest e hp hd => exact absurd (hf s.orch _ _ _) hne
  | desc addr w rest r hp ha hr => exact absurd (hf s.orch _ _ _) hne
  | reset rest hp => exact absurd ⟨rest, hp⟩ hr
  | wake rest hp => exact absurd ⟨rest, hp⟩ hw
  | idle | ignored | byte | read => exact absurd rfl hne

/-- Settles O18: the command that ran changed the part, and `orchAfter` says which commands do. -/
theorem engineStateChangesOnlyByItsCommands : Obligations.EngineStateChangesOnlyByItsCommands := by
  intro s t hst hr hw
  refine ⟨fun h => ?_, fun h => ?_, fun h => ?_, fun h => ?_⟩
  · have hne : (t.orch.locked, t.orch.owner) ≠ (s.orch.locked, s.orch.owner) := fun heq =>
      h.elim (absurd (congrArg Prod.fst heq)) (absurd (congrArg Prod.snd heq))
    obtain ⟨i, hrun, hi⟩ :=
      command_of_engine_change (fun o => (o.locked, o.owner)) (fun _ _ _ _ => rfl) hst hr hw hne
    obtain ⟨tok, rfl | rfl⟩ := lockCommand_of_orchAfter hi
    · exact ⟨tok, .inl hrun⟩
    · exact ⟨tok, .inr hrun⟩
  · obtain ⟨i, hrun, hi⟩ := command_of_engine_change Orch.gen (fun _ _ _ _ => rfl) hst hr hw h
    obtain ⟨tok, rfl⟩ := acquire_of_orchAfter_gen hi
    exact ⟨tok, hrun⟩
  · obtain ⟨i, hrun, hi⟩ := command_of_engine_change Orch.ctx (fun _ _ _ _ => rfl) hst hr hw h
    obtain ⟨tok, rfl | rfl⟩ := keyCommand_of_orchAfter_ctx hi
    · exact ⟨tok, .inl hrun⟩
    · exact ⟨tok, .inr hrun⟩
  · obtain ⟨i, hrun, hi⟩ := command_of_engine_change Orch.macReady (fun _ _ _ _ => rfl) hst hr hw h
    obtain ⟨tok, rfl | rfl | rfl⟩ := macCommand_of_orchAfter_macReady hi
    · exact ⟨tok, .inl hrun⟩
    · exact ⟨tok, .inr (.inl hrun)⟩
    · exact ⟨tok, .inr (.inr hrun)⟩

/-! ### The result and the descriptor registers -/

theorem writesCmd_of_result_change {s t : State} (hst : step s = .next t) (hr : ¬ Resets s) (hw : ¬ Wakes s)
    (hne : t.orch.fail ≠ s.orch.fail ∨ t.orch.err ≠ s.orch.err) : ∃ w, WritesCmd s w := by
  cases step_cases hst with
  | command w rest i t hp hd he => exact ⟨w, rest, hp⟩
  | illegal w rest e hp hd => exact ⟨w, rest, hp⟩
  | reset rest hp => exact absurd ⟨rest, hp⟩ hr
  | wake rest hp => exact absurd ⟨rest, hp⟩ hw
  | idle | ignored | desc | byte | read => exact hne.elim (absurd rfl) (absurd rfl)

theorem registerWrite_of_desc_change {s t : State} (hst : step s = .next t) (hr : ¬ Resets s) (hw : ¬ Wakes s)
    (hne : t.orch.desc ≠ s.orch.desc) :
    ∃ (addr v : Word) (r : DescReg), s.pending.head? = some (.write addr .word v) ∧
      addr.toNat = s.platform.aesBase.toNat + r.offset ∧ t.orch.desc = s.orch.desc.set r v := by
  cases step_cases hst with
  | desc addr v rest r hp ha hslot =>
    obtain ⟨-, hle, -, -, -⟩ := hostTarget_slot ha
    have hoff := windowSlot_desc hslot
    exact ⟨addr, v, r, by rw [hp, List.head?_cons], by omega, rfl⟩
  | command w rest i t hp hd he => exact absurd (exec_desc he) hne
  | reset rest hp => exact absurd ⟨rest, hp⟩ hr
  | wake rest hp => exact absurd ⟨rest, hp⟩ hw
  | idle | illegal | ignored | byte | read => exact absurd rfl hne

/-- Settles O19. -/
theorem resultAndDescriptorsChangeOnlyByWindowWrites : Obligations.ResultAndDescriptorsChangeOnlyByWindowWrites :=
  fun _ _ hst hr hw => ⟨writesCmd_of_result_change hst hr hw, registerWrite_of_desc_change hst hr hw⟩

end Sys2Proof.Machine
end

