-- ==== Sys2Proof/Proofs/KeySecrecy.lean ====
section
/-! PROOF. The key stays inside the block: two states that differ in the key alone take steps a host cannot tell apart
but by what a cipher writes to memory (10_state.md R30). -/

namespace Sys2Proof.Machine

/-! ### States that differ in the key -/

/-- The state with another key. -/
def State.withKey (s : State) (k : List Byte) : State :=
  { s with orch := { s.orch with ctx := { s.orch.ctx with key := k } } }

@[simp] theorem withKey_platform (s : State) (k : List Byte) : (s.withKey k).platform = s.platform := rfl

/-- The block's state without the key. -/
def Orch.hideKey (o : Orch) : Orch :=
  { o with ctx := { o.ctx with key := [] } }

/-- The two states agree on all but the key and caller memory. -/
structure AgreeButKey (s s' : State) : Prop where
  orch : s'.orch.hideKey = s.orch.hideKey
  readData : s'.readData = s.readData
  pending : s'.pending = s.pending
  platform : s'.platform = s.platform

/-- `STATUS` shows nothing of the key (R24, R30). -/
theorem status_hideKey (o : Orch) : o.hideKey.status = o.status := rfl

/-- A part of the machine whose next state depends on the key in the key and caller memory alone. -/
def KeyBlind (f : State → Result) : Prop :=
  ∀ s k t t', f s = .next t → f (s.withKey k) = .next t' → AgreeButKey t t'

theorem keyBlind_next {g : State → State} (h : ∀ s k, AgreeButKey (g s) (g (s.withKey k))) :
    KeyBlind fun s => .next (g s) := by
  rintro s k _ _ ⟨⟩ ⟨⟩
  exact h s k

/-! ### Commands -/

/-- No check reads the key. -/
theorem checksOf_withKey (s : State) (k : List Byte) (i : Instr) : checksOf (s.withKey k) i = checksOf s i := by
  cases i <;> rfl

/-- A command keeps the key, or puts one in its place that does not depend on it. -/
theorem orchAfter_withKey (s : State) (k : List Byte) (i : Instr) :
    (orchAfter (s.withKey k) i).hideKey = (orchAfter s i).hideKey := by
  cases i <;> rfl

theorem raise_keyBlind (e : Err) : KeyBlind fun s => .next (s.raise e) :=
  keyBlind_next fun _ _ => ⟨rfl, rfl, rfl, rfl⟩

theorem complete_agreeButKey (s : State) (k : List Byte) (i : Instr) (ws ws' : List (Nat × List Byte)) :
    AgreeButKey (s.complete ws (orchAfter s i)) ((s.withKey k).complete ws' (orchAfter (s.withKey k) i)) where
  orch := congrArg succeeded (orchAfter_withKey s k i)
  readData := rfl
  pending := rfl
  platform := rfl

theorem exec_keyBlind (i : Instr) : KeyBlind (exec i) := by
  intro s k t t' h h'
  rw [exec_eq_command, command] at h h'
  rw [checksOf_withKey] at h'
  cases hfirst : firstError (checksOf s i) with
  | some e =>
    rw [hfirst] at h h'
    exact raise_keyBlind e s k t t' h h'
  | none =>
    rw [hfirst] at h h'
    cases h
    cases h'
    exact complete_agreeButKey s k i _ _

/-! ### Host accesses -/

theorem issue_keyBlind (w : Word) : KeyBlind (issue w) := by
  unfold issue
  cases decode w with
  | ok i => exact exec_keyBlind i
  | error e => exact raise_keyBlind .invalidCommand

theorem windowWrite_keyBlind (off : Nat) (v : Word) : KeyBlind (windowWrite off v) := by
  unfold windowWrite
  cases windowSlot off with
  | cmd => exact issue_keyBlind v
  | status | reserved | desc r => exact keyBlind_next fun _ _ => ⟨rfl, rfl, rfl, rfl⟩

/-- No slot of the window shows the key. -/
theorem windowRead_withKey (off : Nat) (s : State) (k : List Byte) : windowRead off (s.withKey k) = windowRead off s := by
  unfold windowRead
  cases windowSlot off <;> rfl

theorem hostWrite_keyBlind (addr : Word) (size : AccessSize) (v : Word) : KeyBlind (hostWrite addr size v) := by
  intro s k t t' h h'
  rw [hostWrite] at h h'
  rw [withKey_platform] at h'
  cases ht : hostTarget s.platform addr size with
  | slot off =>
    rw [ht] at h h'
    exact windowWrite_keyBlind off v s k t t' h h'
  | memoryByte =>
    rw [ht] at h h'
    cases h
    cases h'
    exact ⟨rfl, rfl, rfl, rfl⟩
  | windowMisuse | wideElsewhere =>
    rw [ht] at h
    cases h

theorem hostRead_keyBlind (addr : Word) (size : AccessSize) : KeyBlind (hostRead addr size) := by
  intro s k t t' h h'
  rw [hostRead] at h h'
  rw [withKey_platform] at h'
  cases ht : hostTarget s.platform addr size with
  | slot off =>
    rw [ht] at h h'
    cases h
    cases h'
    exact ⟨rfl, windowRead_withKey off s k, rfl, rfl⟩
  | memoryByte =>
    rw [ht] at h h'
    cases h
    cases h'
    exact ⟨rfl, rfl, rfl, rfl⟩
  | windowMisuse | wideElsewhere =>
    rw [ht] at h
    cases h

theorem perform_keyBlind {a : HostAccess} (ha : a ≠ .lowPowerExit) : KeyBlind (perform a) := by
  cases a with
  | write addr size v => exact hostWrite_keyBlind addr size v
  | read addr size => exact hostRead_keyBlind addr size
  | reset => exact keyBlind_next fun _ _ => ⟨rfl, rfl, rfl, rfl⟩
  | lowPowerExit => exact absurd rfl ha

theorem step_agreeButKey {s t t' : State} {k : List Byte} (hw : ¬ Wakes s) (h : step s = .next t)
    (h' : step (s.withKey k) = .next t') : AgreeButKey t t' := by
  cases hp : s.pending with
  | nil =>
    have hp' : (s.withKey k).pending = [] := hp
    simp only [step, hp] at h
    simp only [step, hp'] at h'
    cases h
    cases h'
    exact ⟨rfl, rfl, rfl, rfl⟩
  | cons a rest =>
    have ha : a ≠ .lowPowerExit := fun ha => hw ⟨rest, ha ▸ hp⟩
    rw [step_cons hp] at h
    rw [step_cons (s := s.withKey k) hp] at h'
    exact perform_keyBlind ha _ k t t' h h'

/-- Settles O21: what the statement compares is `readData`, `pending`, `platform` and the block's state without its
context, and `STATUS` is a view of the state without the key. -/
theorem keyIsNeverReadable : Obligations.KeyIsNeverReadable := by
  intro s s' t t' k hs hw h h'
  subst hs
  obtain ⟨horch, hread, hpend, hplat⟩ := step_agreeButKey (k := k) hw h h'
  refine ⟨hread, ?_, ?_, hpend, hplat⟩
  · rw [← status_hideKey, horch, status_hideKey]
  · exact congrArg (fun o : Orch => { o with ctx := AesContext.none }) horch

end Sys2Proof.Machine
end

