-- ==== Sys2Proof/Proofs/MemoryAccess.lean ====
section
/-! PROOF. Caller memory stays canonical and inside the address space, and no command reaches the register window
(20_memory.md R50, R51, R55). -/

namespace Sys2Proof.Machine

/-! ### Every step keeps memory legal -/

/-- Settles O10: a command writes inside its regions, which do not wrap, and a host byte has a 32-bit address. -/
theorem stepKeepsMemoryLegal : Obligations.StepKeepsMemoryLegal :=
  fun _ _ => step_mem_legal

/-! ### The register window -/

/-- `MemAdmit` denies the window (R51, log 13). -/
theorem not_admits_of_inWindow {p : Platform} {a : Nat} (h : p.inWindow a = true) (k : AccessKind) :
    p.admits a k = false := by
  simp [Platform.admits, h]

/-- Every region is read or written, so an admitted one has no byte in the window. -/
theorem not_inWindow_of_admitted {p : Platform} {r : Region} (h : r.admitted p) {a : Nat} (h1 : r.base ≤ a)
    (h2 : a < r.base + r.size) : p.inWindow a = false := by
  obtain ⟨i, rfl⟩ := Nat.exists_eq_add_of_le h1
  obtain ⟨hread, hwrite⟩ := h.2 i (Nat.lt_of_add_lt_add_left h2)
  by_contra hin
  have hdeny := not_admits_of_inWindow (Bool.of_not_eq_false hin)
  cases hacc : r.access with
  | r | rw => exact Bool.false_ne_true ((hdeny .read).symm.trans (hread (by rw [hacc]; rfl)))
  | w => exact Bool.false_ne_true ((hdeny .write).symm.trans (hwrite (by rw [hacc]; rfl)))

/-- A command that passed its checks has no region with a byte in the window. -/
theorem clear_not_inWindow {i : Instr} {s : State} (hc : Clear i s) {r : Region} (hr : r ∈ i.regions s.orch.desc)
    {a : Nat} (h1 : r.base ≤ a) (h2 : a < r.base + r.size) : s.platform.inWindow a = false := by
  have hadm : r.admitted s.platform := by
    by_contra hn
    exact hc .badAccess ⟨r, hr, by omega, hn⟩
  exact not_inWindow_of_admitted hadm h1 h2

/-- Settles O22: such a command cannot have passed its checks, and a failure writes no memory. -/
theorem commandNeverReachesTheWindow : Obligations.CommandNeverReachesTheWindow := by
  intro i s t r a hr h1 h2 hw1 hw2 he
  rcases exec_cases he with ⟨e, -, rfl⟩ | ⟨hc, -⟩
  · exact ⟨rfl, rfl⟩
  · have hout := clear_not_inWindow (clear_iff.2 hc) hr h1 h2
    exact absurd ⟨hw1, hw2⟩ (of_decide_eq_false hout)

end Sys2Proof.Machine
end

