-- ==== Sys2Proof/Proofs/BlockModes.lean ====
section
/-! PROOF. What a block-mode command writes, and that it writes nothing else (41_block_modes.md R120 to R126). -/

namespace Sys2Proof.Machine

/-! ### What every block-mode command does -/

/-- A block-mode command that passed its checks writes its output blocks at `OUT_ADDR` and nothing else (R80, R120). -/
theorem blockMode_of_clear {i : Instr} {s : State} {out : List Block} (hw : s.mem.wf) (hc : Clear i s)
    (ho : orchAfter s i = s.orch) (hws : writesOf s i = outputWrite s out)
    (hn : out.length = s.orch.desc.blockCount) :
    ∃ t, exec i s = .next t ∧ t.orch = succeeded s.orch ∧ SameOutside s t ∧
      (∀ j (hj : j < s.orch.desc.blockCount), t.mem.readBlock (s.orch.desc.outBase + 16 * j) = out[j]'(hn ▸ hj)) ∧
      SameMemoryBut s.orch.desc.outBase s.orch.desc.len.toNat s t := by
  have hexec := exec_of_clear hc
  rw [ho, hws] at hexec
  refine ⟨_, hexec, rfl, complete_sameOutside s _ _, fun j hj => ?_, fun x hx => byteAt_writeBytes_outside hw ?_⟩
  · exact readBlock_writeBlocks hw _ out j (hn ▸ hj)
  · have hlen := blockCount_le s.orch.desc
    rw [length_concatBlocks, hn]
    omega

/-- Input block `j` of a block-mode command (R82). -/
theorem getElem_inputBlocks (s : State) (j : Nat) (h : j < (inputBlocks s).length) :
    (inputBlocks s)[j] = s.mem.readBlock (s.orch.desc.inBase + 16 * j) :=
  getElem_readBlocks ..

/-- An ECB command that passed its checks writes `f` of each input block, `f` being `E_c` or `D_c` (R121, R122). -/
theorem ecb_of_clear {i : Instr} {s : State} {f : Block → Block} (hw : s.mem.wf) (hc : Clear i s)
    (ho : orchAfter s i = s.orch) (hws : writesOf s i = outputWrite s ((inputBlocks s).map f)) :
    ∃ t, exec i s = .next t ∧ t.orch = succeeded s.orch ∧ SameOutside s t ∧
      (∀ j, j < s.orch.desc.blockCount → t.mem.readBlock (s.orch.desc.outBase + 16 * j) =
        f (s.mem.readBlock (s.orch.desc.inBase + 16 * j))) ∧
      SameMemoryBut s.orch.desc.outBase s.orch.desc.len.toNat s t := by
  obtain ⟨t, hexec, horch, hout, hblocks, hframe⟩ := blockMode_of_clear hw hc ho hws (by simp)
  refine ⟨t, hexec, horch, hout, fun j hj => ?_, hframe⟩
  rw [hblocks j hj, List.getElem_map, getElem_inputBlocks]

/-! ### The four commands -/

/-- Settles O31: `ecb_of_clear` with `E_c`. -/
theorem ecbEncEncryptsEachBlock : Obligations.EcbEncEncryptsEachBlock :=
  fun _ s hw => ⟨fun hc => ecb_of_clear hw hc rfl rfl, reportsFirstFailure _ s⟩

/-- Settles O32: `ecb_of_clear` with `D_c`. -/
theorem ecbDecDecryptsEachBlock : Obligations.EcbDecDecryptsEachBlock :=
  fun _ s hw => ⟨fun hc => ecb_of_clear hw hc rfl rfl, reportsFirstFailure _ s⟩

/-- Settles O33: block `j` of `cbcEncrypt` chains on its block `j - 1`, which memory holds after the command. -/
theorem cbcEncChainsCiphertext : Obligations.CbcEncChainsCiphertext := by
  intro tok s hw
  refine ⟨fun hc => ?_, reportsFirstFailure _ s⟩
  obtain ⟨t, hexec, horch, hout, hblocks, hframe⟩ := blockMode_of_clear hw hc rfl rfl (by simp)
  refine ⟨t, hexec, horch, hout, fun j hj => ?_, hframe⟩
  have hprev : j - 1 < s.orch.desc.blockCount := Nat.lt_of_le_of_lt (Nat.sub_le j 1) hj
  rw [hblocks j hj, hblocks (j - 1) hprev, getElem_cbcEncrypt _ _ _ j (by rwa [length_inputBlocks]),
    getElem_inputBlocks, ivBlock]

/-- Settles O34: block `j` of `cbcDecrypt` chains on the input block `j - 1`. -/
theorem cbcDecChainsCiphertext : Obligations.CbcDecChainsCiphertext := by
  intro tok s hw
  refine ⟨fun hc => ?_, reportsFirstFailure _ s⟩
  obtain ⟨t, hexec, horch, hout, hblocks, hframe⟩ := blockMode_of_clear hw hc rfl rfl (by simp)
  refine ⟨t, hexec, horch, hout, fun j hj => ?_, hframe⟩
  rw [hblocks j hj, getElem_cbcDecrypt _ _ _ j (by rwa [length_inputBlocks]), getElem_inputBlocks,
    getElem_inputBlocks, ivBlock]

end Sys2Proof.Machine
end

