-- ==== Sys2Proof/Proofs/CommandWords.lean ====
section
/-! PROOF. Command words: the fields of a word, the round trips of decoder and encoder, and the opcode table
(30_encoding.md R70 to R77). -/

namespace Sys2Proof

/-! ### The fields of a word as digits (R70) -/

theorem fieldMode_eq (w : Word) : fieldMode w = w.toNat % 8 := by
  simp [fieldMode]

theorem fieldOp_eq (w : Word) : fieldOp w = w.toNat / 16 % 4 := by
  simp [fieldOp, Nat.shiftRight_eq_div_pow]

theorem fieldToken_eq (w : Word) : fieldToken w = w.toNat / 65536 % 256 := by
  simp [fieldToken, Nat.shiftRight_eq_div_pow]

theorem fieldFlag_eq (w : Word) : fieldFlag w = decide (w.toNat / 256 % 2 = 1) :=
  Nat.testBit_eq_decide_div_mod_eq

theorem fieldFlag_toNat (w : Word) : (fieldFlag w).toNat = w.toNat / 256 % 2 := by
  rw [fieldFlag_eq]
  rcases Nat.mod_two_eq_zero_or_one (w.toNat / 256) with h | h <;> simp [h]

/-- The mask of `n` bits from bit `k` up cuts out one digit. -/
theorem and_digitMask (x k n : Nat) : x &&& (2 ^ n - 1) * 2 ^ k = x / 2 ^ k % 2 ^ n * 2 ^ k := by
  refine Nat.eq_of_testBit_eq fun j => ?_
  by_cases hj : k ≤ j
  · simp [Nat.testBit_mul_two_pow, Nat.testBit_mod_two_pow, Nat.testBit_div_two_pow, Nat.testBit_two_pow_sub_one, hj,
      Bool.and_comm]
  · simp [Nat.testBit_mul_two_pow, hj]

/-- The reserved bits of a word are clear exactly when its four reserved digits are 0 (R70). -/
theorem reserved_clear_iff (w : Word) :
    w &&& reservedMask = 0#32 ↔
      w.toNat / 8 % 2 = 0 ∧ w.toNat / 64 % 4 = 0 ∧ w.toNat / 512 % 128 = 0 ∧ w.toNat / 16777216 % 256 = 0 := by
  have hmask : reservedMask.toNat =
      (2 ^ 1 - 1) * 2 ^ 3 ||| (2 ^ 2 - 1) * 2 ^ 6 ||| (2 ^ 7 - 1) * 2 ^ 9 ||| (2 ^ 8 - 1) * 2 ^ 24 := rfl
  rw [← BitVec.toNat_inj, BitVec.toNat_and, hmask]
  simp only [Nat.and_or_distrib_left, and_digitMask, BitVec.toNat_zero, Nat.or_eq_zero_iff, Nat.mul_eq_zero]
  omega

theorem assemble_toNat {mode op tok : Nat} (flag : Bool) (hm : mode < 8) (ho : op < 4) (ht : tok < 256) :
    (assemble mode op flag tok).toNat = tok * 65536 + flag.toNat * 256 + op * 16 + mode := by
  have hf := flag.toNat_lt
  rw [assemble, BitVec.toNat_ofNat]
  omega

/-- The word of fields in range has exactly these fields, and its reserved bits are clear. -/
theorem fields_assemble {mode op tok : Nat} (flag : Bool) (hm : mode < 8) (ho : op < 4) (ht : tok < 256) :
    assemble mode op flag tok &&& reservedMask = 0#32 ∧ fieldMode (assemble mode op flag tok) = mode ∧
      fieldOp (assemble mode op flag tok) = op ∧ fieldFlag (assemble mode op flag tok) = flag ∧
      fieldToken (assemble mode op flag tok) = tok := by
  have hf := flag.toNat_lt
  have hflag : fieldFlag (assemble mode op flag tok) = flag := by
    rw [Bool.eq_iff_iff, ← Bool.toNat_eq_one, ← Bool.toNat_eq_one, fieldFlag_toNat, assemble_toNat flag hm ho ht]
    omega
  rw [reserved_clear_iff, fieldMode_eq, fieldOp_eq, fieldToken_eq, assemble_toNat flag hm ho ht]
  refine ⟨?_, ?_, ?_, hflag, ?_⟩ <;> omega

/-- A word whose reserved bits are clear is assembled from its fields. -/
theorem assemble_fields {w : Word} (h : w &&& reservedMask = 0#32) :
    assemble (fieldMode w) (fieldOp w) (fieldFlag w) (fieldToken w) = w := by
  obtain ⟨h3, h6, h9, h24⟩ := (reserved_clear_iff w).1 h
  have hlt := w.isLt
  apply BitVec.eq_of_toNat_eq
  rw [fieldMode_eq, fieldOp_eq, fieldToken_eq, assemble_toNat _ (by omega) (by omega) (by omega), fieldFlag_toNat]
  omega

/-! ### What the decoder answers -/

@[simp] theorem rowWithoutFlag_eq_ok {flag : Bool} {i j : Instr} :
    rowWithoutFlag flag i = .ok j ↔ flag = false ∧ i = j := by
  cases flag <;> simp [rowWithoutFlag]

/-- The decoder's table and `modeOpFlag` are one table (R76). -/
theorem decodeFields_eq_ok_iff {mode op tok : Nat} {flag : Bool} {i : Instr} :
    decodeFields mode op flag tok = .ok i ↔ i.modeOpFlag = (mode, op, flag) ∧ i.token = tok := by
  constructor
  · intro h
    unfold decodeFields at h
    split at h
    case h_8 | h_9 | h_10 =>
      cases h
      exact ⟨rfl, rfl⟩
    case h_12 => split at h <;> cases h
    all_goals
      obtain ⟨rfl, rfl⟩ := rowWithoutFlag_eq_ok.1 h
      exact ⟨rfl, rfl⟩
  · rintro ⟨h, rfl⟩
    cases i <;> cases h <;> rfl

theorem decode_eq_ok_iff {w : Word} {i : Instr} :
    decode w = .ok i ↔ w &&& reservedMask = 0#32 ∧
      i.modeOpFlag = (fieldMode w, fieldOp w, fieldFlag w) ∧ i.token = fieldToken w := by
  by_cases hres : w &&& reservedMask = 0#32
  · rw [decode, if_pos hres, decodeFields_eq_ok_iff, and_iff_right hres]
  · rw [decode, if_neg hres]
    exact iff_of_false nofun fun h => hres h.1

theorem modeOpFlag_lt (i : Instr) : i.modeOpFlag.1 < 8 ∧ i.modeOpFlag.2.1 < 4 := by
  cases i <;> simp [Instr.modeOpFlag]

/-- Settles O2: the fields of the word are the command's, and the decoder's table is the encoder's. -/
theorem decodeInvertsEncode : Obligations.DecodeInvertsEncode := by
  intro i hwf
  obtain ⟨hm, ho⟩ := modeOpFlag_lt i
  obtain ⟨hres, hmode, hop, hflag, htok⟩ := fields_assemble i.modeOpFlag.2.2 hm ho (of_decide_eq_true hwf)
  rw [encode, decode_eq_ok_iff, hmode, hop, hflag, htok]
  exact ⟨hres, rfl, rfl⟩

/-- Settles O3: the word is assembled from its fields, which are the command's. -/
theorem encodeInvertsDecode : Obligations.EncodeInvertsDecode := by
  intro w i h
  obtain ⟨hres, hfields, htok⟩ := decode_eq_ok_iff.1 h
  refine ⟨decide_eq_true ?_, ?_⟩
  · rw [htok]
    exact BitVec.isLt _
  · rw [encode, hfields, htok, assemble_fields hres]

/-- Settles O1: the decoder runs on each word. -/
theorem specWordsDecodeToTheirCommands : Obligations.SpecWordsDecodeToTheirCommands :=
  ⟨rfl, rfl, rfl, rfl, rfl, rfl, rfl, rfl⟩

/-! ### Illegal words (R77) -/

/-- R77's cases for a word whose reserved bits are clear, on its fields. -/
def IllegalFields (mode op : Nat) (flag : Bool) : Prop :=
  mode ∈ [6, 7] ∨
    (mode, op) ∈
      [(0, 2), (0, 3), (1, 1), (1, 2), (1, 3), (2, 2), (2, 3), (3, 2), (3, 3), (4, 2), (4, 3), (5, 1), (5, 3)] ∨
    (flag = true ∧ (mode, op) ∈ [(0, 0), (0, 1), (1, 0), (2, 0), (2, 1), (3, 0), (3, 1), (5, 2)])

theorem illegalWord_iff (w : Word) :
    IllegalWord w ↔ w &&& reservedMask ≠ 0#32 ∨ IllegalFields (fieldMode w) (fieldOp w) (fieldFlag w) := by
  rw [fieldMode_eq, fieldOp_eq, fieldFlag_eq, IllegalFields, decide_eq_true_iff]
  rfl

/-- The fields of a command are none of R77's cases. -/
theorem not_illegalFields (i : Instr) : ¬ IllegalFields i.modeOpFlag.1 i.modeOpFlag.2.1 i.modeOpFlag.2.2 := by
  cases i <;> simp [IllegalFields, Instr.modeOpFlag]

/-- Every (MODE, OP) pair is one that R77 rejects, or that of a row with a FLAG, or that of a row without (R76). -/
theorem modeOp_cases : ∀ (mode : Fin 8) (op : Fin 4),
    mode.val ∈ [6, 7] ∨
      (mode.val, op.val) ∈
        [(0, 2), (0, 3), (1, 1), (1, 2), (1, 3), (2, 2), (2, 3), (3, 2), (3, 3), (4, 2), (4, 3), (5, 1), (5, 3)] ∨
      (mode.val, op.val) ∈ [(4, 0), (4, 1), (5, 0)] ∨
      (mode.val, op.val) ∈ [(0, 0), (0, 1), (1, 0), (2, 0), (2, 1), (3, 0), (3, 1), (5, 2)] := by
  decide

/-- Fields that select no row are one of R77's cases. -/
theorem illegalFields_of_error {mode op tok : Nat} {flag : Bool} {e : Reject} (hm : mode < 8) (ho : op < 4)
    (h : decodeFields mode op flag tok = .error e) : IllegalFields mode op flag := by
  rcases modeOp_cases ⟨mode, hm⟩ ⟨op, ho⟩ with hmode | hpair | hrow | hrow
  · exact .inl hmode
  · exact .inr (.inl hpair)
  · simp only [List.mem_cons, List.not_mem_nil, or_false, Prod.mk.injEq] at hrow
    rcases hrow with ⟨rfl, rfl⟩ | ⟨rfl, rfl⟩ | ⟨rfl, rfl⟩ <;> cases h
  · cases flag with
    | true => exact .inr (.inr ⟨rfl, hrow⟩)
    | false =>
      simp only [List.mem_cons, List.not_mem_nil, or_false, Prod.mk.injEq] at hrow
      rcases hrow with ⟨rfl, rfl⟩ | ⟨rfl, rfl⟩ | ⟨rfl, rfl⟩ | ⟨rfl, rfl⟩ | ⟨rfl, rfl⟩ | ⟨rfl, rfl⟩ |
        ⟨rfl, rfl⟩ | ⟨rfl, rfl⟩ <;> cases h

/-- The decoder rejects exactly R77's words. -/
theorem illegalWord_iff_not_decodes (w : Word) : IllegalWord w ↔ ¬ ∃ i, decode w = .ok i := by
  rw [illegalWord_iff]
  constructor
  · rintro h ⟨i, hi⟩
    obtain ⟨hres, hfields, -⟩ := decode_eq_ok_iff.1 hi
    have hlegal := not_illegalFields i
    rw [hfields] at hlegal
    exact h.elim (absurd hres) hlegal
  · intro h
    by_cases hres : w &&& reservedMask = 0#32
    · cases hd : decodeFields (fieldMode w) (fieldOp w) (fieldFlag w) (fieldToken w) with
      | ok i => exact absurd ⟨i, by rw [decode, if_pos hres, hd]⟩ h
      | error e => exact .inr (illegalFields_of_error (BitVec.isLt _) (BitVec.isLt _) hd)
    · exact .inl hres

/-! ### The opcode table (R76) -/

/-- Every row fixes the reserved bits to 0, and MODE and OP; a row that looks at FLAG wants 0. -/
theorem opcodeTable_fixes : ∀ r ∈ opcodeTable,
    r.mask &&& reservedMask = reservedMask ∧ r.pattern &&& reservedMask = 0#32 ∧
      r.mask.extractLsb' 0 3 = BitVec.allOnes 3 ∧ r.mask.extractLsb' 4 2 = BitVec.allOnes 2 ∧
      fieldFlag r.pattern = false := by
  decide

theorem opcodeTable_nodup : opcodeTable.Nodup := by
  decide

/-- No two rows have the same MODE and OP. -/
theorem row_eq_of_modeOp : ∀ r ∈ opcodeTable, ∀ q ∈ opcodeTable,
    fieldMode r.pattern = fieldMode q.pattern → fieldOp r.pattern = fieldOp q.pattern → r = q := by
  decide

/-- A row's MODE and OP are a command's, and where FLAG may be 1 the row does not look at it. -/
theorem row_legal : ∀ r ∈ opcodeTable, ∀ flag : Bool, (fieldFlag r.mask = true → flag = false) →
    ¬ IllegalFields (fieldMode r.pattern) (fieldOp r.pattern) flag := by
  unfold IllegalFields
  decide

/-- What a row says of the words that select it. -/
theorem fields_of_selectedBy {r : OpcodeRow} {w : Word} (hr : r ∈ opcodeTable) (h : r.selectedBy w = true) :
    w &&& reservedMask = 0#32 ∧ fieldMode w = fieldMode r.pattern ∧ fieldOp w = fieldOp r.pattern ∧
      (fieldFlag r.mask = true → fieldFlag w = false) := by
  obtain ⟨hres, hpat, hmode, hop, hflag⟩ := opcodeTable_fixes r hr
  replace h : w &&& r.mask = r.pattern := of_decide_eq_true h
  refine ⟨?_, ?_, ?_, fun hf => ?_⟩
  · rw [← hres, ← BitVec.and_assoc, h, hpat]
  · rw [fieldMode, fieldMode, ← h, BitVec.extractLsb'_and, hmode, BitVec.and_allOnes]
  · rw [fieldOp, fieldOp, ← h, BitVec.extractLsb'_and, hop, BitVec.and_allOnes]
  · rw [fieldFlag] at hf
    rwa [← h, fieldFlag, BitVec.getLsbD_and, hf, Bool.and_true] at hflag

/-- A word that selects a row is a command's word. -/
theorem decodes_of_selectedBy {r : OpcodeRow} {w : Word} (hr : r ∈ opcodeTable) (h : r.selectedBy w = true) :
    ∃ i, decode w = .ok i := by
  obtain ⟨hres, hmode, hop, hflag⟩ := fields_of_selectedBy hr h
  by_contra hd
  rw [← illegalWord_iff_not_decodes, illegalWord_iff, hmode, hop] at hd
  exact hd.elim (absurd hres) (row_legal r hr _ hflag)

/-- A word selects one row at most. -/
theorem selectedBy_unique {r q : OpcodeRow} {w : Word} (hr : r ∈ opcodeTable) (hq : q ∈ opcodeTable)
    (hrw : r.selectedBy w = true) (hqw : q.selectedBy w = true) : q = r := by
  obtain ⟨-, hrmode, hrop, -⟩ := fields_of_selectedBy hr hrw
  obtain ⟨-, hqmode, hqop, -⟩ := fields_of_selectedBy hq hqw
  exact row_eq_of_modeOp q hq r hr (hqmode.symm.trans hrmode) (hqop.symm.trans hrop)

theorem filter_selectedBy_eq_singleton {r : OpcodeRow} {w : Word} (hr : r ∈ opcodeTable)
    (h : r.selectedBy w = true) : opcodeTable.filter (fun q => q.selectedBy w) = [r] := by
  refine List.perm_singleton.1 ((List.perm_ext_iff_of_nodup (opcodeTable_nodup.filter _) (List.nodup_singleton r)).2
    fun q => ?_)
  rw [List.mem_filter, List.mem_singleton]
  exact ⟨fun hq => selectedBy_unique hr hq.1 h hq.2, fun hq => hq ▸ ⟨hr, h⟩⟩

theorem selectsItsRow (i : Instr) : Laws.SelectsItsRow.Statement i := by
  cases i with
  | acquire tok => exact Laws.SelectsItsRow.acquire tok
  | release tok => exact Laws.SelectsItsRow.release tok
  | keyInit tok => exact Laws.SelectsItsRow.keyInit tok
  | ecbEnc tok => exact Laws.SelectsItsRow.ecbEnc tok
  | ecbDec tok => exact Laws.SelectsItsRow.ecbDec tok
  | cbcEnc tok => exact Laws.SelectsItsRow.cbcEnc tok
  | cbcDec tok => exact Laws.SelectsItsRow.cbcDec tok
  | ctrEnc init tok => exact Laws.SelectsItsRow.ctrEnc init tok
  | ctrDec init tok => exact Laws.SelectsItsRow.ctrDec init tok
  | macTag seed tok => exact Laws.SelectsItsRow.macTag seed tok
  | macLoadKey tok => exact Laws.SelectsItsRow.macLoadKey tok

/-- Settles O4: a legal word is its command's word, which selects the command's row and no other; a word that selects
a row decodes. -/
theorem legalWordSelectsExactlyOneRow : Obligations.LegalWordSelectsExactlyOneRow := by
  intro w
  constructor
  · intro i hd
    obtain ⟨hwf, rfl⟩ := encodeInvertsDecode w i hd
    obtain ⟨r, hr, hname, hsel⟩ := selectsItsRow i hwf
    exact ⟨r, filter_selectedBy_eq_singleton hr hsel, hname⟩
  · intro e hd
    rw [List.filter_eq_nil_iff]
    intro r hr hsel
    obtain ⟨i, hi⟩ := decodes_of_selectedBy hr hsel
    cases hd.symm.trans hi

end Sys2Proof
end

