-- ==== Sys2Proof/Proofs/CheckOrder.lean ====
section
/-! PROOF. What a write of `CMD` does: an illegal word, the first failing check, or completion (30_encoding.md R77, R79,
R81). -/

namespace Sys2Proof.Machine

/-- A write of an illegal word fails with `InvalidCommand`, and that is its whole effect (R77). -/
theorem step_of_illegalWord {s : State} {w : Word} (hw : WritesCmd s w) (hill : IllegalWord w) :
    step s = .next (failedWith 5#4 { s with pending := s.pending.tail }) := by
  rw [step_writesCmd hw, issue]
  cases hd : decode w with
  | ok i => exact absurd ⟨i, hd⟩ ((illegalWord_iff_not_decodes w).1 hill)
  | error e => rfl

/-- Settles O5: the decoder rejects exactly R77's words. -/
theorem illegalWordRaisesInvalidCommand : Obligations.IllegalWordRaisesInvalidCommand :=
  fun _ w hw => ⟨step_of_illegalWord hw, fun h => not_not.1 (mt (illegalWord_iff_not_decodes w).2 h)⟩

/-- Settles O12: the step is `exec`, which reports its first failing check or completes. -/
theorem commandsFollowTheCheckOrder : Obligations.CommandsFollowTheCheckOrder := by
  rintro s u w hw rfl
  refine ⟨step_of_illegalWord hw, fun i _ hd => ?_⟩
  rw [cmdWriteRunsTheDecodedCommand.1 s w i hw hd]
  exact ⟨reportsFirstFailure i _, fun hc => ⟨_, exec_of_clear hc, rfl, rfl⟩⟩

/-- Settles O13: only a raised error sets `FAIL`, and it comes from the first failing check. -/
theorem failedCommandWritesOnlyFailAndErr : Obligations.FailedCommandWritesOnlyFailAndErr := by
  intro i s t h hf
  rcases exec_cases h with ⟨e, he, rfl⟩ | ⟨-, rfl⟩
  · obtain ⟨c, hc, rfl⟩ := firstFailure_of_error he
    exact ⟨c, hc, raise_eq_failedWith c s⟩
  · cases hf

end Sys2Proof.Machine
end

