-- ==== Sys2Proof/Proofs/KeyAndLock.lean ====
section
/-! PROOF. The engine lock and the key: who may run a command, and what `ACQUIRE`, `RELEASE` and `KEY_INIT` do
(40_key_and_lock.md R101 to R104). -/

namespace Sys2Proof.Machine

/-! ### The owner checks (R104) -/

theorem clear_token {i : Instr} {s : State} (hc : Clear i s) (hi : i.isAcquire = false) :
    i.token = s.orch.owner.toNat :=
  not_not.1 fun h => hc .wrongToken ⟨hi, h⟩

theorem not_engineHeld_fails {i : Instr} (s : State) (hi : i.isAcquire = false) : ¬ Check.engineHeld.fails i s :=
  fun h => Bool.false_ne_true (hi.symm.trans h.1)

theorem firstFailure_engineFree {i : Instr} {s : State} (hi : i.isAcquire = false) (hl : s.orch.locked = false) :
    FirstFailure i s .engineFree := by
  refine ⟨⟨hi, hl⟩, fun c hr => ?_⟩
  cases c with
  | engineHeld => exact not_engineHeld_fails s hi
  | _ => exact absurd hr (by decide)

theorem firstFailure_wrongToken {i : Instr} {s : State} (hi : i.isAcquire = false) (hl : s.orch.locked = true)
    (ht : i.token ≠ s.orch.owner.toNat) : FirstFailure i s .wrongToken := by
  refine ⟨⟨hi, ht⟩, fun c hr => ?_⟩
  cases c with
  | engineHeld => exact not_engineHeld_fails s hi
  | engineFree => exact fun h => Bool.false_ne_true (h.2.symm.trans hl)
  | _ => exact absurd hr (by decide)

/-- Every command but `ACQUIRE` fails with `NotOwner` on a free engine. -/
theorem exec_of_free {i : Instr} {s : State} (hi : i.isAcquire = false) (hl : s.orch.locked = false) :
    exec i s = .next (failedWith 6#4 s) :=
  reportsFirstFailure i s .engineFree (firstFailure_engineFree hi hl)

/-- Every command but `ACQUIRE` fails with `EngineBusy` when its token is not the outstanding one. -/
theorem exec_of_wrongToken {i : Instr} {s : State} (hi : i.isAcquire = false) (hl : s.orch.locked = true)
    (ht : i.token ≠ s.orch.owner.toNat) : exec i s = .next (failedWith 3#4 s) :=
  reportsFirstFailure i s .wrongToken (firstFailure_wrongToken hi hl ht)

/-- Settles O17: success means that the two owner checks passed, and they come before every other check. -/
theorem onlyTheTokenHolderSucceeds : Obligations.OnlyTheTokenHolderSucceeds := by
  intro i s t hi h
  refine ⟨fun hf => ?_, fun hl => ?_, fun hl ht => ?_⟩
  · obtain ⟨hc, -⟩ := exec_success h hf
    exact ⟨clear_locked hc hi, clear_token hc hi⟩
  · exact Host.Outcome.next.inj (h.symm.trans (exec_of_free hi hl))
  · exact Host.Outcome.next.inj (h.symm.trans (exec_of_wrongToken hi hl ht))

/-! ### `ACQUIRE` (R101) -/

/-- The one check of `ACQUIRE` is that the engine is free. -/
theorem clear_acquire {tok : Nat} {s : State} (hl : s.orch.locked = false) : Clear (.acquire tok) s := by
  intro c hf
  obtain rfl := List.mem_singleton.1 (fails_applicable hf)
  exact Bool.false_ne_true (hl.symm.trans hf.2)

/-- No check comes before the one that the engine is free. -/
theorem firstFailure_engineHeld {tok : Nat} {s : State} (hl : s.orch.locked = true) :
    FirstFailure (.acquire tok) s .engineHeld :=
  ⟨⟨rfl, hl⟩, fun _ hr => absurd hr (Nat.not_lt_zero _)⟩

/-- Settles O28: on a free engine the command completes, on a held one its only check fails. -/
theorem acquireGrantsTheNextToken : Obligations.AcquireGrantsTheNextToken := by
  rintro tok s n rfl
  refine ⟨nextToken_ne_zero s.orch.gen, fun hl => ?_, fun hl => ?_⟩
  · exact exec_of_clear (clear_acquire hl)
  · exact reportsFirstFailure _ s .engineHeld (firstFailure_engineHeld hl)

/-! ### `RELEASE` (R102) -/

/-- The owner checks are the only ones of `RELEASE`. -/
theorem clear_release {tok : Nat} {s : State} (hl : s.orch.locked = true) (ht : tok = s.orch.owner.toNat) :
    Clear (.release tok) s := by
  intro c hf
  rcases List.mem_pair.1 (fails_applicable hf) with rfl | rfl
  · exact Bool.false_ne_true (hf.2.symm.trans hl)
  · exact hf.2 ht

/-- Settles O29: `RELEASE` completes for the owner, and on the free engine it leaves a second one is stopped. -/
theorem releaseFreesTheEngine : Obligations.ReleaseFreesTheEngine := by
  intro tok s
  refine ⟨fun hl ht => ?_, exec_of_free rfl, exec_of_wrongToken (i := .release tok) rfl⟩
  exact ⟨_, exec_of_clear (clear_release hl ht), rfl, rfl, exec_of_free rfl rfl⟩

/-! ### `KEY_INIT` (R103) -/

theorem clear_keyLen {tok : Nat} {s : State} (hc : Clear (.keyInit tok) s) :
    s.orch.desc.keyLen.toNat * 8 = s.orch.desc.keyBits.toNat :=
  not_not.1 fun h => hc .badKeyLength ⟨rfl, .inr h⟩

theorem length_loadedContext_key (m : Memory) (d : Descriptor) : (loadedContext m d).key.length = d.keyLen.toNat :=
  length_readBytes ..

/-- The loaded class is the one `KEY_BITS` names: its key has `KEY_LEN` bytes, and `KEY_BITS` is eight times that. -/
theorem loadedContext_cls {tok : Nat} {s : State} (hc : Clear (.keyInit tok) s) :
    8 * keyBytes (loadedContext s.mem s.orch.desc).cls = s.orch.desc.keyBits.toNat := by
  rw [← loadedContext_keyLength hc, length_loadedContext_key, Nat.mul_comm, clear_keyLen hc]

theorem getElem?_loadedContext_key (m : Memory) (d : Descriptor) {j : Nat} (hj : j < d.keyLen.toNat) :
    (loadedContext m d).key[j]? = some (m.byteAt (d.keyAddr.toNat + j)) := by
  have hlen : j < (loadedContext m d).key.length := (length_loadedContext_key m d).symm ▸ hj
  rw [List.getElem?_eq_getElem hlen]
  exact congrArg some (getElem_readBytes m d.keyBase _ j hlen)

/-- Settles O30: a command that passed its checks loads `loadedContext`. -/
theorem keyInitLoadsTheKey : Obligations.KeyInitLoadsTheKey := by
  intro tok s
  refine ⟨fun hc => ?_, reportsFirstFailure _ s⟩
  exact ⟨_, exec_of_clear hc, rfl, rfl, loadedContext_cls hc, length_loadedContext_key _ _, loadedContext_keyLength hc,
    fun _ hj => getElem?_loadedContext_key s.mem s.orch.desc hj, rfl, complete_sameOutside s _ _⟩

end Sys2Proof.Machine
end

