-- ==== Sys2Proof/Proofs/CbcRoundTrip.lean ====
section
/-! PROOF. The round trip of CBC (41_block_modes.md R127). -/

namespace Sys2Proof.Machine

/-- What a successful block-mode command leaves in the output buffer (R120). -/
theorem blockMode_success {i : Instr} {s t : State} {out : List Block} (hw : s.mem.wf) (h : exec i s = .next t)
    (hf : t.orch.fail = false) (hws : writesOf s i = outputWrite s out)
    (hn : out.length = s.orch.desc.blockCount) :
    t.mem.readBlocks s.orch.desc.outBase s.orch.desc.blockCount = out := by
  obtain ⟨-, rfl⟩ := exec_success h hf
  rw [hws]
  exact readBlocks_outputWrite hw hn

/-- CBC decryption undoes CBC encryption under the same IV, block by block: both chain on the same ciphertext block. -/
theorem cbcDecrypt_cbcEncrypt {enc dec : Block → Block} (hde : ∀ b, dec (enc b) = b) (iv : Block) (ps : List Block) :
    cbcDecrypt dec iv (cbcEncrypt enc iv ps) = ps := by
  induction ps generalizing iv with
  | nil => rfl
  | cons p ps ih => rw [cbcEncrypt, cbcDecrypt, hde, block_xor_cancel, ih]

/-- Settles O36: both buffers are read as blocks, and `cbcDecrypt` undoes `cbcEncrypt` on them. -/
theorem cbcRoundTrip : Obligations.CbcRoundTrip := by
  intro tok tok' s t u v hws hwu henc hft hctx hlen hin hiv hdec hfv
  have hct := blockMode_success hws henc hft rfl (by simp)
  have hpt := blockMode_success hwu hdec hfv rfl (by simp)
  obtain ⟨hclear, rfl⟩ := exec_success henc hft
  have hdvd : 16 ∣ s.orch.desc.len.toNat := not_not.1 (hclear .badLength)
  have hcount : u.orch.desc.blockCount = s.orch.desc.blockCount := by
    simp only [Descriptor.blockCount, Descriptor.length, hlen]
  have hctx' : u.orch.ctx = s.orch.ctx := hctx
  have hiv' : ivBlock u = ivBlock s := hiv
  rw [len_eq_mul_blockCount hdvd, ← readBlocks_eq_iff] at hin ⊢
  calc v.mem.readBlocks u.orch.desc.outBase s.orch.desc.blockCount
      = cbcDecrypt (decryptBlock s.orch.ctx) (ivBlock s) (inputBlocks u) := by rw [← hcount, hpt, hctx', hiv']
    _ = cbcDecrypt (decryptBlock s.orch.ctx) (ivBlock s)
          (cbcEncrypt (encryptBlock s.orch.ctx) (ivBlock s) (inputBlocks s)) := by
        rw [inputBlocks, hcount, hin, hct]
    _ = inputBlocks s := cbcDecrypt_cbcEncrypt (decrypt_encrypt s.orch.ctx) _ _

end Sys2Proof.Machine
end

