-- ==== Sys2Proof/Proofs/CtrStream.lean ====
section
/-! PROOF. The counter increment, the check of a stored record, and a counter-mode stream fed in chunks
(42_ctr_stream.md R145 to R148). -/

namespace Sys2Proof.Machine

/-! ### The increment (R146) -/

/-- R10's sum for `be`: byte `i` weighs `256^(n-1-i)`. -/
theorem be_list_eq_sum (l : List Byte) :
    l.foldl (fun acc x => acc * 256 + x.toNat) 0 =
      ((List.range l.length).map fun i => (l.getD i 0#8).toNat * 256 ^ (l.length - (i + 1))).sum := by
  induction l with
  | nil => rfl
  | cons b bs ih =>
    rw [List.foldl_cons, foldl_be, ih]
    simp [List.range_succ_eq_map, Function.comp_def]

theorem be_increment (b : Block) : b.increment.be = (b.be + 1) % 2 ^ 128 :=
  be_unbe _ (Nat.mod_lt _ (by decide))

/-- Settles O38: `be` is R10's weighted sum and `be_increment` counts on it; a block of all 0xFF has the number
`2^128 - 1`. -/
theorem counterWrapsModulo128Bits : Obligations.CounterWrapsModulo128Bits := by
  refine ⟨fun b => ⟨be_increment b, ?_⟩, fun b hb => be_injective ?_⟩
  · rw [Block.be, be_list_eq_sum, b.size_eq]
    simp only [Nat.reduceSubDiff]
  · have hmax : b.be = 2 ^ 128 - 1 := by
      rw [Block.be, hb]
      decide
    rw [be_increment, hmax]
    decide

/-! ### One CTR command (R143, R144, R147) -/

section CtrCommand

variable {i : Instr} {init : Bool} (hi : i.isCtr init)

include hi

theorem resumesStream_of_isCtr : i.resumesStream = !init := by
  obtain ⟨tok, rfl | rfl⟩ := hi <;> rfl

theorem orchAfter_of_isCtr (s : State) : orchAfter s i = s.orch := by
  obtain ⟨tok, rfl | rfl⟩ := hi <;> rfl

theorem writesOf_of_isCtr (s : State) : writesOf s i = ctrWrites s (ctrResult init s) := by
  obtain ⟨tok, rfl | rfl⟩ := hi <;> rfl

end CtrCommand

/-- Settles O39: with no other check failing, a stored offset above 15 is the first failure, and without it the command
completes. -/
theorem storedOffsetAboveFifteenIsRefused : Obligations.StoredOffsetAboveFifteenIsRefused := by
  intro tok s i hi hothers
  have hctr : i.isCtr false := ⟨tok, hi⟩
  refine ⟨fun hoff => ?_, fun hoff => ?_⟩
  · have hfirst : FirstFailure i s .badOffset :=
      ⟨⟨resumesStream_of_isCtr hctr, hoff⟩, fun c hc => hothers c (by rintro rfl; exact Nat.lt_irrefl _ hc)⟩
    exact reportsFirstFailure i s .badOffset hfirst
  · have hclear : Clear i s := fun c hc => by
      by_cases h : c = .badOffset
      · subst h
        exact Nat.not_lt.2 hoff hc.2
      · exact hothers c h hc
    exact ⟨_, exec_of_clear hclear, congrArg succeeded (orchAfter_of_isCtr hctr s)⟩

/-! ### A stream fed in chunks -/

/-- From `s` the bytes `p` became `o` by the byte-at-a-time `ctr_process`, and `t` holds the record of the stream after
them. -/
structure AppliesCtr (init : Bool) (p o : List Byte) (s t : State) : Prop where
  offset_lt : (startStream init s.mem s.orch.desc).offset < 16
  output : o = (ctrBytes (encryptBlock s.orch.ctx) (startStream init s.mem s.orch.desc) p).1
  record : t.record = (ctrBytes (encryptBlock s.orch.ctx) (startStream init s.mem s.orch.desc) p).2.record

/-- A chunk applies `ctr_process` to the bytes it reads: the output and the record do not meet, so each reads back as it
was written. -/
theorem CtrChunk.appliesCtr {init : Bool} {i : Instr} {p o : List Byte} {s t : State} (hw : s.mem.wf)
    (h : CtrChunk init i p o s t) : AppliesCtr init p o s t ∧ t.orch.ctx = s.orch.ctx := by
  obtain ⟨hi, hexec, hf, rfl, rfl⟩ := h
  obtain ⟨hc, rfl⟩ := exec_success hexec hf
  have ho := startStream_offset_lt hc (resumesStream_of_isCtr hi)
  have hlen := length_ctrResult ho
  have hres : ctrResult init s = ctrBytes (encryptBlock s.orch.ctx) (startStream init s.mem s.orch.desc)
      (s.mem.readBytes s.orch.desc.inBase s.orch.desc.len.toNat) := ctrResult_eq_ctrBytes ho
  have hw' := wf_writeBytes hw s.orch.desc.outBase (ctrResult init s).1
  rw [writesOf_of_isCtr hi, orchAfter_of_isCtr hi]
  refine ⟨⟨ho, ?_, ?_⟩, rfl⟩
  · rw [← hres, complete_mem, ctrWrites, commit_two]
    calc _ = (s.mem.writeBytes s.orch.desc.outBase (ctrResult init s).1).readBytes s.orch.desc.outBase
            s.orch.desc.len.toNat := readBytes_congr fun j hj => byteAt_writeBytes_outside hw' (by
          rw [length_record]
          exact ctr_output_stream_disjoint hc hi (Nat.le_add_right _ j) (Nat.add_lt_add_left hj _))
      _ = (ctrResult init s).1 := by rw [← hlen, readBytes_writeBytes hw]
  · rw [← hres, ← readBytes_writeBytes hw' s.orch.desc.streamBase (ctrResult init s).2.record, length_record]
    rfl

/-- A state that holds the record of a stream resumes that stream (R141). -/
theorem startStream_of_record {u : State} {st : CtrStream} (hr : u.record = st.record) (ho : st.offset < 16) :
    startStream false u.mem u.orch.desc = st := by
  obtain ⟨hcounter, hcache, hoff⟩ := readRecord hr ho
  rw [startStream, if_neg Bool.false_ne_true, hcounter, hcache, storedOffset, hoff]

/-- Two runs in a row, the second resuming the first one's record under the same key, are one run. -/
theorem AppliesCtr.append {init : Bool} {p o p' o' : List Byte} {s t u v : State} (h : AppliesCtr init p o s t)
    (hc : u.orch.ctx = s.orch.ctx) (hr : u.record = t.record) (h' : AppliesCtr false p' o' u v) :
    AppliesCtr init (p ++ p') (o ++ o') s v := by
  obtain ⟨ho, rfl, hrec⟩ := h
  obtain ⟨-, rfl, hrec'⟩ := h'
  have hstart := startStream_of_record (hr.trans hrec) (ctrBytes_offset _ _ ho p)
  rw [hstart, hc] at hrec' ⊢
  refine ⟨ho, ?_, ?_⟩
  · rw [ctrBytes_append]
  · rw [ctrBytes_append, hrec']

/-- A run depends on the key and the stream it starts from, and on nothing else of its first state. -/
theorem AppliesCtr.of_sameStart {init : Bool} {p o : List Byte} {s s' t : State} (h : AppliesCtr init p o s' t)
    (hctx : s'.orch.ctx = s.orch.ctx)
    (hstart : startStream init s'.mem s'.orch.desc = startStream init s.mem s.orch.desc) : AppliesCtr init p o s t := by
  obtain ⟨ho, hout, hrec⟩ := h
  rw [hstart] at ho
  rw [hstart, hctx] at hout hrec
  exact ⟨ho, hout, hrec⟩

/-- However a stream is cut into commands, it applies `ctr_process` to all its bytes (R145). -/
theorem CtrStreamed.appliesCtr {init : Bool} {p o : List Byte} {s t : State} (h : CtrStreamed init p o s t)
    (hw : s.mem.wf) : AppliesCtr init p o s t := by
  induction h with
  | last init i p o s t h => exact (h.appliesCtr hw).1
  | chunk init i p o p' o' s t u v h hwu hc hr _ ih =>
    obtain ⟨happ, hctx⟩ := h.appliesCtr hw
    exact happ.append (hc.trans hctx) hr (ih hwu)

/-- Applied again from the same stream, the keystream cancels (R144). -/
theorem ctrBytes_ctrBytes (enc : Block → Block) (st : CtrStream) (l : List Byte) :
    (ctrBytes enc st (ctrBytes enc st l).1).1 = l := by
  induction l generalizing st with
  | nil => rfl
  | cons x xs ih => simp only [ctrBytes, ih, BitVec.xor_assoc, BitVec.xor_self, BitVec.xor_zero]

/-- Settles O40: both runs apply `ctr_process` to their bytes from the same stream under the same key. -/
theorem ctrChunkingIsInvariant : Obligations.CtrChunkingIsInvariant := by
  intro p o q s t s' t' hw hw' hctx hiv h
  have hstart : startStream true s'.mem s'.orch.desc = startStream true s.mem s.orch.desc :=
    congrArg (CtrStream.mk · Block.zero 0) hiv
  obtain ⟨-, rfl, hrec⟩ := h.appliesCtr hw
  refine ⟨fun h' => ?_, fun h' => ?_⟩
  · obtain ⟨-, rfl, hrec'⟩ := (h'.appliesCtr hw').of_sameStart hctx hstart
    exact ⟨rfl, hrec'.trans hrec.symm⟩
  · obtain ⟨-, rfl, -⟩ := (h'.appliesCtr hw').of_sameStart hctx hstart
    exact ctrBytes_ctrBytes _ _ p

/-- Settles O41: the closed form of `ctrBytes` at offset 0, read from the record the last command left. -/
theorem chunkedStreamHasTheClosedForm : Obligations.ChunkedStreamHasTheClosedForm := by
  rintro _ _ p o s t hw rfl rfl h
  obtain ⟨ho, rfl, hrec⟩ := h.appliesCtr hw
  obtain ⟨hout, hstream⟩ := ctrBytes_closed (encryptBlock s.orch.ctx) _ ho p
  obtain ⟨hcounter, hcache, hoff⟩ := readRecord hrec (ctrBytes_offset _ _ ho p)
  refine ⟨length_ctrBytes _ _ p, fun j hj => ?_, ?_, ?_, ?_⟩
  · rw [List.getD_eq_getElem _ _ (by rwa [length_ctrBytes]), hout j hj, List.getD_eq_getElem _ _ hj]
    rfl
  · rw [hcounter, hstream]
    rfl
  · have hblocks : (p.length + 15) / 16 = 0 ↔ p.length = 0 := by omega
    rw [hcache, hstream, ← if_congr hblocks rfl rfl]
    rfl
  · rw [hoff, hstream]
    exact congrArg (· % 16) (Nat.zero_add _)

end Sys2Proof.Machine
end

