-- ==== Sys2Proof/Proofs/MacTag.lean ====
section
/-! PROOF. What `MAC_TAG` writes, its equality with `CBC_ENC`, and that the tag sees every block (43_mac.md R162 to
R166). -/

namespace Sys2Proof.Machine

/-! ### The chaining values -/

/-- The output of `CBC_ENC` is its chaining values (R123). -/
theorem getElem_cbcEncrypt_eq_cbcChain (enc : Block → Block) (iv : Block) {ps : List Block} {m : Nat → Block}
    (hm : ∀ j (h : j < ps.length), ps[j] = m j) (j : Nat) (h : j < ps.length) :
    (cbcEncrypt enc iv ps)[j]'(by rwa [length_cbcEncrypt]) = cbcChain enc iv m j := by
  induction j with
  | zero => rw [getElem_cbcEncrypt _ _ _ 0 h, if_pos rfl, hm 0 h, cbcChain]
  | succ j ih =>
    rw [getElem_cbcEncrypt _ _ _ (j + 1) h, if_neg (Nat.succ_ne_zero j), hm (j + 1) h, cbcChain]
    simp only [Nat.add_sub_cancel, ih (Nat.lt_of_succ_lt h)]

theorem xor_left_injective (a : Block) {x y : Block} (h : a.xor x = a.xor y) : x = y := by
  rw [block_xor_comm a x, block_xor_comm a y] at h
  exact xor_right_injective a h

/-- Two messages that agree outside block `k` have the same chaining value from `k` on exactly when they agree there
too: a difference enters the chain at `k`, and every later link is injective in the one before it (R166). -/
theorem cbcChain_eq_iff {enc : Block → Block} (henc : ∀ a b, enc a = enc b → a = b) {iv : Block} {m m' : Nat → Block}
    {k n : Nat} (hk : k ≤ n) (h : ∀ j, j ≤ n → j ≠ k → m' j = m j) :
    cbcChain enc iv m' n = cbcChain enc iv m n ↔ m' k = m k := by
  refine ⟨fun hchain => ?_, fun hblock => cbcChain_congr fun j hj => ?_⟩
  · induction n with
    | zero =>
      obtain rfl := Nat.le_zero.1 hk
      exact xor_right_injective iv (henc _ _ hchain)
    | succ n ih =>
      have hlink := henc _ _ hchain
      rcases Nat.le_succ_iff.1 hk with hle | rfl
      · rw [h (n + 1) (Nat.le_refl _) (by omega)] at hlink
        exact ih hle (fun j hj => h j (Nat.le_succ_of_le hj)) (xor_left_injective _ hlink)
      · rw [cbcChain_congr fun j hj => h j (Nat.le_succ_of_le hj) (by omega)] at hlink
        exact xor_right_injective _ hlink
  · by_cases hjk : j = k
    · rw [hjk, hblock]
    · exact h j hj hjk

/-! ### `MAC_TAG` (R162, R163) -/

/-- Block `j` of the input buffer (R82). -/
def inputBlock (s : State) (j : Nat) : Block :=
  s.mem.readBlock (s.orch.desc.inBase + 16 * j)

/-- The chaining values of `MAC_TAG`: those of CBC over the data from the seed. -/
def macTagChain (f : Bool) (s : State) : Nat → Block :=
  cbcChain (encryptBlock s.orch.ctx) (macSeed f s) (inputBlock s)

/-- R162 refuses an empty message. -/
theorem clear_macTag_blockCount_pos {f : Bool} {tok : Nat} {s : State} (hc : Clear (.macTag f tok) s) :
    0 < s.orch.desc.blockCount := by
  obtain ⟨hne, hdvd⟩ := not_or.1 (hc .badLength)
  exact Nat.div_pos (Nat.le_of_dvd (Nat.pos_of_ne_zero hne) (not_not.1 hdvd)) (by decide)

theorem length_macResult_scratch (f : Bool) (s : State) :
    (macResult f s).1.length = s.orch.desc.blockCount - 1 := by
  rw [macResult, length_macChain, length_readBlocks]

/-- `MAC_TAG` writes the tag and the scratch only. -/
theorem byteAt_macTag_outside (f : Bool) (tok : Nat) {s : State} (hw : s.mem.wf) {x : Nat}
    (htag : ¬ (s.orch.desc.outBase ≤ x ∧ x < s.orch.desc.outBase + 16))
    (hscratch : ¬ (s.orch.desc.inBase ≤ x ∧ x < s.orch.desc.inBase + 16 * (s.orch.desc.blockCount - 1))) :
    (s.mem.commit (writesOf s (.macTag f tok))).byteAt x = s.mem.byteAt x :=
  byteAt_writeBytes_writeBytes_outside hw (by rwa [length_concatBlocks, length_macResult_scratch])
    (by rwa [Block.size_eq])

section MacTag

variable {f : Bool} {tok : Nat} {s : State} (hc : Clear (.macTag f tok) s)

include hc

/-- What `MAC_TAG` computes is its chaining values: the last is the tag, the others are the scratch blocks. -/
theorem macResult_eq_macTagChain :
    (macResult f s).2 = macTagChain f s (s.orch.desc.blockCount - 1) ∧
      ∀ j (h : j < (macResult f s).1.length), (macResult f s).1[j] = macTagChain f s j := by
  have hne : inputBlocks s ≠ [] :=
    List.ne_nil_of_length_pos (by rw [length_inputBlocks]; exact clear_macTag_blockCount_pos hc)
  have hchain := macChain_eq_cbcChain (encryptBlock s.orch.ctx) (macSeed f s) _ _ (getElem_inputBlocks s) hne
  rw [length_inputBlocks] at hchain
  exact hchain

variable (hw : s.mem.wf)

include hw

/-- The tag, written last, reads back whole. -/
theorem readBlock_macTag_tag :
    (s.mem.commit (writesOf s (.macTag f tok))).readBlock s.orch.desc.outBase =
      macTagChain f s (s.orch.desc.blockCount - 1) := by
  rw [← (macResult_eq_macTagChain hc).1]
  exact readBlock_writeBytes (wf_writeBytes hw _ _) _ _

/-- A scratch byte that the tag does not overlap reads back as the chaining value's. -/
theorem byteAt_macTag_scratch {j k : Nat} (hj : j < s.orch.desc.blockCount - 1) (hk : k < 16)
    (hout : ¬ (s.orch.desc.outBase ≤ s.orch.desc.inBase + 16 * j + k ∧
      s.orch.desc.inBase + 16 * j + k < s.orch.desc.outBase + 16)) :
    (s.mem.commit (writesOf s (.macTag f tok))).byteAt (s.orch.desc.inBase + 16 * j + k) =
      (macTagChain f s j).bytes[k]'(by rwa [Block.size_eq]) := by
  have hj' : j < (macResult f s).1.length := by rwa [length_macResult_scratch]
  simp only [← (macResult_eq_macTagChain hc).2 j hj', ← getElem_concatBlocks _ j k hj' hk]
  rw [Nat.add_assoc] at hout ⊢
  exact byteAt_writeBytes_writeBytes hw _ (by rwa [Block.size_eq])

end MacTag

/-- Settles O43: the tag, the scratch outside it and the frame, each by its lemma above. -/
theorem macTagWritesScratchThenTag : Obligations.MacTagWritesScratchThenTag := by
  rintro f tok n s chain hw (hn : n = s.orch.desc.blockCount) (hchain : chain = macTagChain f s)
  subst hn hchain
  refine ⟨fun hc => ⟨_, exec_of_clear hc, rfl, complete_sameOutside s _ _, ?_, fun j k hj hk hout => ?_, fun x => ?_⟩,
    reportsFirstFailure _ s⟩
  · exact readBlock_macTag_tag hc hw
  · rw [List.getD_eq_getElem _ _ (by rwa [Block.size_eq])]
    exact byteAt_macTag_scratch hc hw hj hk hout
  · exact byteAt_macTag_outside f tok hw

/-! ### The tag and CBC (R164) -/

/-- Output block `j` of a successful `CBC_ENC` is a chaining value (R123). -/
theorem readBlock_of_cbcEnc_success {tok : Nat} {u v : State} (hw : u.mem.wf) (h : exec (.cbcEnc tok) u = .next v)
    (hf : v.orch.fail = false) {j : Nat} (hj : j < u.orch.desc.blockCount) :
    v.mem.readBlock (u.orch.desc.outBase + 16 * j) =
      cbcChain (encryptBlock u.orch.ctx) (ivBlock u) (inputBlock u) j := by
  obtain ⟨-, rfl⟩ := exec_success h hf
  have hlen : j < (inputBlocks u).length := by rwa [length_inputBlocks]
  exact (readBlock_writeBlocks hw _ _ j (by rwa [length_cbcEncrypt])).trans
    (getElem_cbcEncrypt_eq_cbcChain _ _ (getElem_inputBlocks u) j hlen)

theorem blockCount_congr {d e : Descriptor} (h : e.len = d.len) : e.blockCount = d.blockCount := by
  rw [Descriptor.blockCount, Descriptor.length, h, Descriptor.blockCount, Descriptor.length]

/-- Settles O44: both commands write the chaining values of the same data from the same block under the same key. -/
theorem macTagIsTheLastCbcBlock : Obligations.MacTagIsTheLastCbcBlock := by
  rintro f tok tok' n s t u v hws hwu (hn : n = s.orch.desc.blockCount) hmac hft hcbc hfv hctx hlen hdata
    (hiv : ivBlock u = macSeed f s)
  subst hn
  obtain ⟨hc, rfl⟩ := exec_success hmac hft
  have hpos := clear_macTag_blockCount_pos hc
  have hcbcBlock : ∀ j, j < s.orch.desc.blockCount →
      v.mem.readBlock (u.orch.desc.outBase + 16 * j) = macTagChain f s j := fun j hj => by
    rw [readBlock_of_cbcEnc_success hwu hcbc hfv (by rwa [blockCount_congr hlen]), hctx, hiv]
    exact cbcChain_congr fun i hi => hdata i (Nat.lt_of_le_of_lt hi hj)
  refine ⟨?_, fun j hj hout => ?_⟩
  · rw [hcbcBlock _ (Nat.sub_lt hpos Nat.one_pos)]
    exact readBlock_macTag_tag hc hws
  · rw [hcbcBlock j (Nat.lt_of_lt_of_le hj (Nat.sub_le ..))]
    exact readBlock_eq fun k hk => byteAt_macTag_scratch hc hws hj hk (by omega)

/-! ### Every block counts (R166) -/

theorem macSeed_congr {f : Bool} {s u : State}
    (h : f = true → u.mem.readBlock u.orch.desc.ivBase = s.mem.readBlock s.orch.desc.ivBase) :
    macSeed f u = macSeed f s := by
  cases f with
  | false => rfl
  | true => exact h rfl

/-- Settles O45: the two tags are the last chaining values of data that agree outside block `k`. -/
theorem macTagSeesEveryBlock : Obligations.MacTagSeesEveryBlock := by
  rintro f tok n k s t u v hws hwu (hn : n = s.orch.desc.blockCount) hk hs hft hu hfv hctx hlen hseed hdata
  subst hn
  obtain ⟨hcs, rfl⟩ := exec_success hs hft
  obtain ⟨hcu, rfl⟩ := exec_success hu hfv
  rw [complete_mem, complete_mem, readBlock_macTag_tag hcs hws, readBlock_macTag_tag hcu hwu, blockCount_congr hlen,
    macTagChain, macTagChain, hctx, macSeed_congr hseed]
  exact cbcChain_eq_iff (fun _ _ => encryptBlock_injective _) (Nat.le_sub_one_of_lt hk)
    fun j hj => hdata j (by omega)

end Sys2Proof.Machine
end

