-- ==== Sys2Proof/Proofs/Exceptions.lean ====
section
/-! PROOF. A repeated failure, who frees the engine, and the end of a low-power mode (60_exceptions.md R182, R193;
70_reset_and_hazards.md R210, R224). -/

namespace Sys2Proof.Machine

/-! ### A failed command repeated (R182) -/

/-- No check reads the result of the command before. -/
@[simp] theorem checksOf_raise (e : Err) (s : State) (i : Instr) : checksOf (s.raise e) i = checksOf s i := by
  cases i <;> rfl

/-- A second error leaves nothing of the first. -/
@[simp] theorem raise_raise (e e' : Err) (s : State) : (s.raise e').raise e = s.raise e := rfl

theorem exec_of_error {i : Instr} {s : State} {e : Err} (h : firstError (checksOf s i) = some e) :
    exec i s = .next (s.raise e) := by
  rw [exec_eq_command, command, h]

/-- Settles O16: the checks see the same state but for `FAIL` and `ERR`, and raise the same error. -/
theorem retryFailsIdentically : Obligations.RetryFailsIdentically := by
  intro i s t h hf
  rcases exec_cases h with ⟨e, he, rfl⟩ | ⟨-, rfl⟩
  · have hretry : firstError (checksOf (s.raise e) i) = some e := by rw [checksOf_raise, he]
    rw [exec_of_error hretry, raise_raise]
  · cases hf

/-! ### Who frees the engine (R224) -/

/-- The only command that frees the engine is the `RELEASE` of the outstanding token. -/
theorem release_of_exec_frees {i : Instr} {s t : State} (h : exec i s = .next t) (hl : s.orch.locked = true)
    (hfree : t.orch.locked = false) : i = .release s.orch.owner.toNat := by
  have hne : t.orch.locked ≠ s.orch.locked := by simp [hl, hfree]
  rcases exec_cases h with ⟨e, -, rfl⟩ | ⟨hc, rfl⟩
  · exact absurd (raise_locked s e) hne
  · cases i with
    | acquire tok => cases hfree
    | release tok => exact congrArg Instr.release (clear_token (clear_iff.2 hc) rfl)
    | _ => exact absurd rfl hne

/-- Settles O20: of the steps that are neither reset nor wake, only a command changes the lock. -/
theorem onlyReleaseOrResetFreesTheEngine : Obligations.OnlyReleaseOrResetFreesTheEngine := by
  intro s t hl hst hfree
  cases step_cases hst with
  | command w rest i t hp hd he =>
    obtain rfl := release_of_exec_frees he hl hfree
    exact .inr (.inr ⟨w, ⟨rest, hp⟩, hd⟩)
  | reset rest hp => exact .inl ⟨rest, hp⟩
  | wake rest hp => exact .inr (.inl ⟨rest, hp⟩)
  | idle | illegal | ignored | desc | byte | read => exact absurd (hl.symm.trans hfree) nofun

/-! ### The end of a low-power mode (R193), and a reset after it (R210) -/

theorem step_of_wakes {s : State} (h : Wakes s) :
    step s = .next (State.lowPowerExit { s with pending := s.pending.tail }) := by
  obtain ⟨rest, hp⟩ := h
  rw [step_cons hp, hp]
  rfl

theorem step_of_resets {s : State} (h : Resets s) :
    step s = .next (State.resetBlock { s with pending := s.pending.tail }) := by
  obtain ⟨rest, hp⟩ := h
  rw [step_cons hp, hp]
  rfl

/-- A reset makes the block legal, whatever its state was. -/
theorem reset_gives_legal {s t : State} (h : Resets s) (hm : s.mem.Legal) (hst : step s = .next t) : t.Legal := by
  obtain rfl := Host.Outcome.next.inj ((step_of_resets h).symm.trans hst)
  exact ⟨orchReset_legal, hm⟩

/-- Settles O11: a wake touches the block's state only, so memory stays legal, and the reset restores the block. -/
theorem lowPowerExitLeavesTheBlockUnknown : Obligations.LowPowerExitLeavesTheBlockUnknown :=
  fun _ hw => ⟨step_of_wakes hw, fun _ _ hst hr hm hst' => reset_gives_legal hr (step_mem_legal hm hst) hst'⟩

end Sys2Proof.Machine
end
